-- ==== Sys2Proof/Word.lean ====
section
/-! DEFINITION. The widths of the core's values (spec 00_scope.md R6, 10_state.md R20 to R30): bytes, 16-bit
words, 64-bit display rows, register numbers and the fields of an instruction word. -/

namespace Sys2Proof

/-- An 8-bit value: a general register, a timer, a memory byte (R20, R28, R29). -/
abbrev Byte := BitVec 8

/-- A 16-bit value: the pc, `I`, a stack entry, an instruction word, the keypad bitmask (R24, R25, R26, R33, R90). -/
abbrev Word := BitVec 16

/-- A display row: 64 pixels, column `c` in bit `63 - c` (R30, R31). -/
abbrev Row := BitVec 64

/-- A 4-bit field of an instruction word: the top nibble, the row count `n`, a secondary key (R91). -/
abbrev Nibble := BitVec 4

/-- The 12-bit address immediate `nnn` (R91). -/
abbrev Addr12 := BitVec 12

/-- The number of a general register, 0 to 15 (R20, R94). -/
abbrev Reg := Fin 16

/-- Register 15, the carry, borrow and collision flag (R21). -/
abbrev VF : Reg := 15

/-- A register number as the 4-bit field that names it (R91, R94). -/
abbrev Reg.nibble (x : Reg) : Nibble := BitVec.ofFin x

end Sys2Proof
end

