-- ==== Sys2Proof/Config.lean ====
section
/-! DEFINITION. The implementation parameters of spec 00_scope.md R6 with their defaults, their well-formedness
(R7), the fixed layout constants, the free inputs of a
cycle (R13, R34) and the free number of ticks before it (R271). -/

namespace Sys2Proof

/-- `BOUNDS_POLICY`: what a data address at or above `MEM_SIZE` does (R6, R66, D3). -/
inductive BoundsPolicy where
  | fail
  | wrap
deriving DecidableEq, Repr

/-- `VF_WRITE_ORDER`: which write VF keeps when a flag-writing instruction has x = 15 (R6, R173, D8). -/
inductive VfWriteOrder where
  | flagLast
  | resultLast
deriving DecidableEq, Repr

/-- `PROG_START`: the fixed program-start offset (R6, R63). -/
def progStart : Nat := 0x200

/-- `FONT_LEN`: 16 glyphs of 5 bytes (R6, R40). -/
abbrev fontLen : Nat := 80

/-- `GLYPH_H`: bytes of one font glyph (R6, R40). -/
def glyphHeight : Nat := 5

/-- The parameters of R6 marked "parameter". -/
structure Config where
  /-- `MEM_SIZE`: memory bytes. -/
  memSize : Nat
  /-- `STACK_DEPTH`: call-stack capacity in entries. -/
  stackDepth : Nat
  /-- `ENTRY_PC`: the pc after construction. -/
  entryPc : Word
  /-- `FONT`: the 80 font bytes. -/
  font : Vector Byte fontLen
  /-- `BOUNDS_POLICY`. -/
  boundsPolicy : BoundsPolicy
  /-- `STRICT_DECODE`. -/
  strictDecode : Bool
  /-- `VF_WRITE_ORDER`. -/
  vfWriteOrder : VfWriteOrder
deriving DecidableEq, Repr

namespace Config

/-- The relations R7 requires of the parameters: room for one instruction and for the font, and a stack. -/
abbrev wf (c : Config) : Prop := progStart + 2 ≤ c.memSize ∧ fontLen ≤ c.memSize ∧ 1 ≤ c.stackDepth

/-- The customary hexadecimal font, the default of `FONT` (R41, D4). -/
def defaultFont : Vector Byte fontLen :=
  (#v[0xF0, 0x90, 0x90, 0x90, 0xF0,  0x20, 0x60, 0x20, 0x20, 0x70,
      0xF0, 0x10, 0xF0, 0x80, 0xF0,  0xF0, 0x10, 0xF0, 0x10, 0xF0] : Vector Byte 20) ++
  (#v[0x90, 0x90, 0xF0, 0x10, 0x10,  0xF0, 0x80, 0xF0, 0x10, 0xF0,
      0xF0, 0x80, 0xF0, 0x90, 0xF0,  0xF0, 0x10, 0x20, 0x40, 0x40] : Vector Byte 20) ++
  (#v[0xF0, 0x90, 0xF0, 0x90, 0xF0,  0xF0, 0x90, 0xF0, 0x10, 0xF0,
      0xF0, 0x90, 0xF0, 0x90, 0x90,  0xE0, 0x90, 0xE0, 0x90, 0xE0] : Vector Byte 20) ++
  (#v[0xF0, 0x80, 0x80, 0x80, 0xF0,  0xE0, 0x90, 0x90, 0x90, 0xE0,
      0xF0, 0x80, 0xF0, 0x80, 0xF0,  0xF0, 0x80, 0xF0, 0x80, 0x80] : Vector Byte 20)

/-- The default of every parameter (R6). -/
def default : Config where
  memSize := 4096
  stackDepth := 16
  entryPc := 0x200
  font := defaultFont
  boundsPolicy := .fail
  strictDecode := false
  vfWriteOrder := .flagLast

/-- FREE VALUE (R13, D15, I12): the byte the oracle supplies as the `n`-th draw of a cycle whose host gives none.
It has no body, so a claim is true whatever the draws are. Assumption log 3. -/
opaque freeRand : Nat → Byte

/-- FREE VALUE (R34): the keypad value of the `n`-th cycle whose inputs the host gives only by calling it. It has no
body, so a claim is true whatever keys are held. Assumption log 2. -/
opaque freeKeys : Nat → Word

/-- FREE VALUE (R271, D22, I23): how many TICKs the host makes before the `n`-th cycle whose inputs it gives only by
calling it. It has no body, so a claim is true whatever the interleaving of TICK and CYCLE is. Assumption log 2. -/
opaque freeTicks : Nat → Nat

end Config

end Sys2Proof
end

