-- ==== Sys2Proof/Syntax.lean ====
section
/-! DEFINITION. The instructions: one constructor per row of spec/opcode_table.json, in its order (30_encoding.md
R103). Operands are the fields of R91. A row with bits outside the dispatch key (R96, R101: `0_E0`, `0_EE`, `5xy_`,
`9xy_`) carries them as `u`, so that an instruction determines its word; `shr` and `shl` carry the `y` field the
spec decodes and ignores (R103, R168, R170). -/

namespace Sys2Proof

/-- The 34 instructions (R103, R104). -/
inductive Instr where
  /-- `0_E0` CLS (R210). -/
  | cls (u : Nibble)
  /-- `0_EE` RET (R140). -/
  | ret (u : Nibble)
  /-- `1nnn` JP nnn (R141). -/
  | jp (nnn : Addr12)
  /-- `2nnn` CALL nnn (R142). -/
  | call (nnn : Addr12)
  /-- `3xkk` SE Vx, kk (R143). -/
  | seImm (x : Reg) (kk : Byte)
  /-- `4xkk` SNE Vx, kk (R144). -/
  | sneImm (x : Reg) (kk : Byte)
  /-- `5xy_` SE Vx, Vy (R145). -/
  | seReg (x y : Reg) (u : Nibble)
  /-- `6xkk` LD Vx, kk (R160). -/
  | ldImm (x : Reg) (kk : Byte)
  /-- `7xkk` ADD Vx, kk (R161). -/
  | addImm (x : Reg) (kk : Byte)
  /-- `8xy0` LD Vx, Vy (R162). -/
  | ldReg (x y : Reg)
  /-- `8xy1` OR Vx, Vy (R163). -/
  | orReg (x y : Reg)
  /-- `8xy2` AND Vx, Vy (R164). -/
  | andReg (x y : Reg)
  /-- `8xy3` XOR Vx, Vy (R165). -/
  | xorReg (x y : Reg)
  /-- `8xy4` ADD Vx, Vy (R166). -/
  | addReg (x y : Reg)
  /-- `8xy5` SUB Vx, Vy (R167). -/
  | subReg (x y : Reg)
  /-- `8xy6` SHR Vx (R168); `y` is decoded and ignored. -/
  | shr (x y : Reg)
  /-- `8xy7` SUBN Vx, Vy (R169). -/
  | subnReg (x y : Reg)
  /-- `8xyE` SHL Vx (R170); `y` is decoded and ignored. -/
  | shl (x y : Reg)
  /-- `9xy_` SNE Vx, Vy (R146). -/
  | sneReg (x y : Reg) (u : Nibble)
  /-- `Annn` LD I, nnn (R190). -/
  | ldI (nnn : Addr12)
  /-- `Bnnn` JP V0, nnn (R147). -/
  | jpV0 (nnn : Addr12)
  /-- `Cxkk` RND Vx, kk (R171). -/
  | rnd (x : Reg) (kk : Byte)
  /-- `Dxyn` DRW Vx, Vy, n (R213). -/
  | drw (x y : Reg) (n : Nibble)
  /-- `Ex9E` SKP Vx (R230). -/
  | skp (x : Reg)
  /-- `ExA1` SKNP Vx (R231). -/
  | sknp (x : Reg)
  /-- `Fx07` LD Vx, DT (R232). -/
  | ldVxDT (x : Reg)
  /-- `Fx0A` LD Vx, K (R235). -/
  | ldVxK (x : Reg)
  /-- `Fx15` LD DT, Vx (R233). -/
  | ldDTVx (x : Reg)
  /-- `Fx18` LD ST, Vx (R234). -/
  | ldSTVx (x : Reg)
  /-- `Fx1E` ADD I, Vx (R191). -/
  | addI (x : Reg)
  /-- `Fx29` LD F, Vx (R192). -/
  | ldF (x : Reg)
  /-- `Fx33` LD B, Vx (R193). -/
  | ldB (x : Reg)
  /-- `Fx55` LD [I], Vx (R194). -/
  | storeRegs (x : Reg)
  /-- `Fx65` LD Vx, [I] (R195). -/
  | loadRegs (x : Reg)
deriving DecidableEq, Repr

end Sys2Proof
end

