-- ==== Sys2Proof/WellFormed.lean ====
section
/-! DEFINITION. Which instructions a decoder may produce under each value of `STRICT_DECODE` (30_encoding.md R101).
The widths of all operand fields are in their types; the one check left is on the bits outside the dispatch key. -/

namespace Sys2Proof

/-- The bits outside the dispatch key: free when `STRICT_DECODE` is false, zero when it is true (R101). -/
abbrev keylessBitsOk (strict : Bool) (u : Nibble) : Bool := !strict || decide (u = 0)

/-- Well-formedness under `STRICT_DECODE = strict` (R96, R100, R101). -/
def Instr.wf (strict : Bool) : Instr → Bool
  | .cls u => keylessBitsOk strict u
  | .ret u => keylessBitsOk strict u
  | .seReg _ _ u => keylessBitsOk strict u
  | .sneReg _ _ u => keylessBitsOk strict u
  | .jp _ | .call _ | .seImm _ _ | .sneImm _ _ | .ldImm _ _ | .addImm _ _ | .ldReg _ _ | .orReg _ _
  | .andReg _ _ | .xorReg _ _ | .addReg _ _ | .subReg _ _ | .shr _ _ | .subnReg _ _ | .shl _ _
  | .ldI _ | .jpV0 _ | .rnd _ _ | .drw _ _ _ | .skp _ | .sknp _ | .ldVxDT _ | .ldVxK _ | .ldDTVx _
  | .ldSTVx _ | .addI _ | .ldF _ | .ldB _ | .storeRegs _ | .loadRegs _ => true

end Sys2Proof
end

