-- ==== Sys2Proof/Decode.lean ====
section
/-! DEFINITION. Decoding: a total function from a 16-bit word to an instruction or a named decode error
(30_encoding.md R95 to R102, R106), the same over bytes in memory order (R64, R90), the encoder written from the
same map (R92, R103), and the opcode table's rows as data (spec/opcode_table.json). -/

namespace Sys2Proof

/-- Why a word selects no handler (R96 to R99, R101), or why bytes hold no whole word (R90). -/
inductive Reject where
  /-- Family 0x0: the low byte is neither 0xE0 nor 0xEE (R96); the SYS words of R104 are here. -/
  | unknownKey0
  /-- Family 0x8: the low nibble is none of 0 to 7 and 0xE (R97). -/
  | unknownKey8
  /-- Family 0xE: the low byte is neither 0x9E nor 0xA1 (R98). -/
  | unknownKeyE
  /-- Family 0xF: the low byte is none of the nine keys (R99). -/
  | unknownKeyF
  /-- `STRICT_DECODE` and a nonzero bit outside the dispatch key (R101). -/
  | keylessBits
  /-- Fewer than the two bytes of an instruction word (R90). -/
  | truncated
deriving DecidableEq, Repr

/-! ## Fields of the instruction word (R91) -/

/-- `op` = bits 15:12. -/
def fieldOp (w : Word) : Nibble := w.extractLsb' 12 4
/-- `x` = bits 11:8, as raw bits. -/
def fieldXBits (w : Word) : Nibble := w.extractLsb' 8 4
/-- `y` = bits 7:4, as raw bits. -/
def fieldYBits (w : Word) : Nibble := w.extractLsb' 4 4
/-- `n` = bits 3:0. -/
def fieldN (w : Word) : Nibble := w.extractLsb' 0 4
/-- `kk` = bits 7:0. -/
def fieldKK (w : Word) : Byte := w.extractLsb' 0 8
/-- `nnn` = bits 11:0. -/
def fieldNNN (w : Word) : Addr12 := w.extractLsb' 0 12
/-- `x` as a register number (R94). -/
def fieldX (w : Word) : Reg := (fieldXBits w).toFin
/-- `y` as a register number (R94). -/
def fieldY (w : Word) : Reg := (fieldYBits w).toFin

/-! ## Dispatch (R95) -/

/-- An instruction whose word has bits `u` outside the key: a decode error under `STRICT_DECODE` unless they are
zero (R101). -/
def keyless (strict : Bool) (u : Nibble) (i : Instr) : Except Reject Instr :=
  if keylessBitsOk strict u then .ok i else .error .keylessBits

/-- Family 0x0, keyed on the low byte (R96, R104). -/
def family0 (strict : Bool) (w : Word) : Except Reject Instr :=
  if fieldKK w = 0xE0 then keyless strict (fieldXBits w) (.cls (fieldXBits w))
  else if fieldKK w = 0xEE then keyless strict (fieldXBits w) (.ret (fieldXBits w))
  else .error .unknownKey0

/-- Family 0x8, keyed on the low nibble (R97). -/
def family8 (w : Word) : Except Reject Instr :=
  if fieldN w = 0x0 then .ok (.ldReg (fieldX w) (fieldY w))
  else if fieldN w = 0x1 then .ok (.orReg (fieldX w) (fieldY w))
  else if fieldN w = 0x2 then .ok (.andReg (fieldX w) (fieldY w))
  else if fieldN w = 0x3 then .ok (.xorReg (fieldX w) (fieldY w))
  else if fieldN w = 0x4 then .ok (.addReg (fieldX w) (fieldY w))
  else if fieldN w = 0x5 then .ok (.subReg (fieldX w) (fieldY w))
  else if fieldN w = 0x6 then .ok (.shr (fieldX w) (fieldY w))
  else if fieldN w = 0x7 then .ok (.subnReg (fieldX w) (fieldY w))
  else if fieldN w = 0xE then .ok (.shl (fieldX w) (fieldY w))
  else .error .unknownKey8

/-- Family 0xE, keyed on the low byte (R98). -/
def familyE (w : Word) : Except Reject Instr :=
  if fieldKK w = 0x9E then .ok (.skp (fieldX w))
  else if fieldKK w = 0xA1 then .ok (.sknp (fieldX w))
  else .error .unknownKeyE

/-- Family 0xF, keyed on the low byte (R99). -/
def familyF (w : Word) : Except Reject Instr :=
  if fieldKK w = 0x07 then .ok (.ldVxDT (fieldX w))
  else if fieldKK w = 0x0A then .ok (.ldVxK (fieldX w))
  else if fieldKK w = 0x15 then .ok (.ldDTVx (fieldX w))
  else if fieldKK w = 0x18 then .ok (.ldSTVx (fieldX w))
  else if fieldKK w = 0x1E then .ok (.addI (fieldX w))
  else if fieldKK w = 0x29 then .ok (.ldF (fieldX w))
  else if fieldKK w = 0x33 then .ok (.ldB (fieldX w))
  else if fieldKK w = 0x55 then .ok (.storeRegs (fieldX w))
  else if fieldKK w = 0x65 then .ok (.loadRegs (fieldX w))
  else .error .unknownKeyF

/-- First-level dispatch on the top nibble (R95), the twelve single-level slots of R100 and the four families.
Total on all 65536 words (R106). -/
def decode (strict : Bool) (w : Word) : Except Reject Instr :=
  if fieldOp w = 0x0 then family0 strict w
  else if fieldOp w = 0x1 then .ok (.jp (fieldNNN w))
  else if fieldOp w = 0x2 then .ok (.call (fieldNNN w))
  else if fieldOp w = 0x3 then .ok (.seImm (fieldX w) (fieldKK w))
  else if fieldOp w = 0x4 then .ok (.sneImm (fieldX w) (fieldKK w))
  else if fieldOp w = 0x5 then keyless strict (fieldN w) (.seReg (fieldX w) (fieldY w) (fieldN w))
  else if fieldOp w = 0x6 then .ok (.ldImm (fieldX w) (fieldKK w))
  else if fieldOp w = 0x7 then .ok (.addImm (fieldX w) (fieldKK w))
  else if fieldOp w = 0x8 then family8 w
  else if fieldOp w = 0x9 then keyless strict (fieldN w) (.sneReg (fieldX w) (fieldY w) (fieldN w))
  else if fieldOp w = 0xA then .ok (.ldI (fieldNNN w))
  else if fieldOp w = 0xB then .ok (.jpV0 (fieldNNN w))
  else if fieldOp w = 0xC then .ok (.rnd (fieldX w) (fieldKK w))
  else if fieldOp w = 0xD then .ok (.drw (fieldX w) (fieldY w) (fieldN w))
  else if fieldOp w = 0xE then familyE w
  else familyF w

/-- The instruction word of two bytes in address order: the byte at the lower address is bits 15:8 (R64, R121). -/
def wordOfBytes (hi lo : Byte) : Word := hi ++ lo

/-- The byte at the lower address of a word in memory (R64). -/
def highByte (w : Word) : Byte := w.extractLsb' 8 8

/-- The byte at the higher address of a word in memory (R64). -/
def lowByte (w : Word) : Byte := w.extractLsb' 0 8

/-- Decoding a byte sequence: the first instruction and the rest (R90: always exactly two bytes). -/
def decodeBytes (strict : Bool) : List Byte → Except Reject (Instr × List Byte)
  | hi :: lo :: rest => (decode strict (wordOfBytes hi lo)).map fun i => (i, rest)
  | [_] => .error .truncated
  | [] => .error .truncated

/-! ## Encoding (R92, R103) -/

/-- `FXS` and `FXK` layouts: top nibble, register, low byte (R92). -/
def encXK (op : Nibble) (x : Reg) (kk : Byte) : Word := op ++ x.nibble ++ kk
/-- `FXY` and `FXYN` layouts: top nibble, two registers, low nibble (R92). -/
def encXY (op : Nibble) (x y : Reg) (n : Nibble) : Word := op ++ x.nibble ++ y.nibble ++ n
/-- `FA` layout: top nibble and 12-bit address (R92). -/
def encA (op : Nibble) (nnn : Addr12) : Word := op ++ nnn
/-- `F0` layout: top nibble 0, four bits outside the key, low byte (R92). -/
def enc0 (u : Nibble) (kk : Byte) : Word := (0x0 : Nibble) ++ u ++ kk

/-- The word of an instruction (R103). -/
def encode : Instr → Word
  | .cls u => enc0 u 0xE0
  | .ret u => enc0 u 0xEE
  | .jp nnn => encA 0x1 nnn
  | .call nnn => encA 0x2 nnn
  | .seImm x kk => encXK 0x3 x kk
  | .sneImm x kk => encXK 0x4 x kk
  | .seReg x y u => encXY 0x5 x y u
  | .ldImm x kk => encXK 0x6 x kk
  | .addImm x kk => encXK 0x7 x kk
  | .ldReg x y => encXY 0x8 x y 0x0
  | .orReg x y => encXY 0x8 x y 0x1
  | .andReg x y => encXY 0x8 x y 0x2
  | .xorReg x y => encXY 0x8 x y 0x3
  | .addReg x y => encXY 0x8 x y 0x4
  | .subReg x y => encXY 0x8 x y 0x5
  | .shr x y => encXY 0x8 x y 0x6
  | .subnReg x y => encXY 0x8 x y 0x7
  | .shl x y => encXY 0x8 x y 0xE
  | .sneReg x y u => encXY 0x9 x y u
  | .ldI nnn => encA 0xA nnn
  | .jpV0 nnn => encA 0xB nnn
  | .rnd x kk => encXK 0xC x kk
  | .drw x y n => encXY 0xD x y n
  | .skp x => encXK 0xE x 0x9E
  | .sknp x => encXK 0xE x 0xA1
  | .ldVxDT x => encXK 0xF x 0x07
  | .ldVxK x => encXK 0xF x 0x0A
  | .ldDTVx x => encXK 0xF x 0x15
  | .ldSTVx x => encXK 0xF x 0x18
  | .addI x => encXK 0xF x 0x1E
  | .ldF x => encXK 0xF x 0x29
  | .ldB x => encXK 0xF x 0x33
  | .storeRegs x => encXK 0xF x 0x55
  | .loadRegs x => encXK 0xF x 0x65

/-- An instruction's two bytes in address order (R64, R90). -/
def encodeBytes (i : Instr) : List Byte := [highByte (encode i), lowByte (encode i)]

/-! ## The opcode table's rows -/

/-- `mask`, `strict_mask` and `match` of a row of spec/opcode_table.json: a word belongs to the row when its bits
under the mask are the match; `strict_mask` applies with `STRICT_DECODE = true` (R101, R103). -/
structure TableRow where
  mask : Word
  strictMask : Word
  value : Word
deriving DecidableEq, Repr

/-- The row of each instruction, from spec/opcode_table.json. -/
def tableRow : Instr → TableRow
  | .cls _ => ⟨0xF0FF, 0xFFFF, 0x00E0⟩
  | .ret _ => ⟨0xF0FF, 0xFFFF, 0x00EE⟩
  | .jp _ => ⟨0xF000, 0xF000, 0x1000⟩
  | .call _ => ⟨0xF000, 0xF000, 0x2000⟩
  | .seImm _ _ => ⟨0xF000, 0xF000, 0x3000⟩
  | .sneImm _ _ => ⟨0xF000, 0xF000, 0x4000⟩
  | .seReg _ _ _ => ⟨0xF000, 0xF00F, 0x5000⟩
  | .ldImm _ _ => ⟨0xF000, 0xF000, 0x6000⟩
  | .addImm _ _ => ⟨0xF000, 0xF000, 0x7000⟩
  | .ldReg _ _ => ⟨0xF00F, 0xF00F, 0x8000⟩
  | .orReg _ _ => ⟨0xF00F, 0xF00F, 0x8001⟩
  | .andReg _ _ => ⟨0xF00F, 0xF00F, 0x8002⟩
  | .xorReg _ _ => ⟨0xF00F, 0xF00F, 0x8003⟩
  | .addReg _ _ => ⟨0xF00F, 0xF00F, 0x8004⟩
  | .subReg _ _ => ⟨0xF00F, 0xF00F, 0x8005⟩
  | .shr _ _ => ⟨0xF00F, 0xF00F, 0x8006⟩
  | .subnReg _ _ => ⟨0xF00F, 0xF00F, 0x8007⟩
  | .shl _ _ => ⟨0xF00F, 0xF00F, 0x800E⟩
  | .sneReg _ _ _ => ⟨0xF000, 0xF00F, 0x9000⟩
  | .ldI _ => ⟨0xF000, 0xF000, 0xA000⟩
  | .jpV0 _ => ⟨0xF000, 0xF000, 0xB000⟩
  | .rnd _ _ => ⟨0xF000, 0xF000, 0xC000⟩
  | .drw _ _ _ => ⟨0xF000, 0xF000, 0xD000⟩
  | .skp _ => ⟨0xF0FF, 0xF0FF, 0xE09E⟩
  | .sknp _ => ⟨0xF0FF, 0xF0FF, 0xE0A1⟩
  | .ldVxDT _ => ⟨0xF0FF, 0xF0FF, 0xF007⟩
  | .ldVxK _ => ⟨0xF0FF, 0xF0FF, 0xF00A⟩
  | .ldDTVx _ => ⟨0xF0FF, 0xF0FF, 0xF015⟩
  | .ldSTVx _ => ⟨0xF0FF, 0xF0FF, 0xF018⟩
  | .addI _ => ⟨0xF0FF, 0xF0FF, 0xF01E⟩
  | .ldF _ => ⟨0xF0FF, 0xF0FF, 0xF029⟩
  | .ldB _ => ⟨0xF0FF, 0xF0FF, 0xF033⟩
  | .storeRegs _ => ⟨0xF0FF, 0xF0FF, 0xF055⟩
  | .loadRegs _ => ⟨0xF0FF, 0xF0FF, 0xF065⟩

/-- The instruction the decoder reads, under the default of `STRICT_DECODE` (R6: false), from a word numbered as
spec/opcode_table.json numbers it: one 16-bit word, laid out high byte first (R64). -/
def decodeTableWord (nbits w : Nat) : Option Instr :=
  match decodeBytes Config.default.strictDecode
      [highByte (BitVec.ofNat 16 (w % 2 ^ nbits)), lowByte (BitVec.ofNat 16 (w % 2 ^ nbits))] with
  | .ok (i, _) => some i
  | .error _ => none

end Sys2Proof
end

