-- ==== Sys2Proof/Machine/State.lean ====
section
/-! DEFINITION. The machine's state as plain data: all the architectural state of 10_state.md R20 to R36, the
configuration R6 fixes for a machine's lifetime, the inputs and output of the cycle in hand, the host's pending
operations (R50), and the state after construction (70_reset_and_hazards.md R290). -/

namespace Sys2Proof.Machine

/-- The kinds of fatal error (00_scope.md R15 "fatal", 60_exceptions.md R252 to R255), which the latch `halted` holds. -/
inductive ErrorKind where
  | fetchOutOfBounds
  | stackOverflow
  | stackUnderflow
  | memoryOutOfRange
deriving DecidableEq, Repr

/-- The typed result of a `CYCLE`, with the information each carries (60_exceptions.md R250). -/
inductive CycleResult where
  /-- `Ok`. -/
  | ok
  /-- `DecodeError(w, ipc)`, not fatal. -/
  | decodeError (w ipc : Word)
  /-- `Fatal(FetchOutOfBounds, pc)`. -/
  | fetchOutOfBounds (pc : Word)
  /-- `Fatal(StackOverflow, ipc, w)`. -/
  | stackOverflow (ipc w : Word)
  /-- `Fatal(StackUnderflow, ipc, w)`. -/
  | stackUnderflow (ipc w : Word)
  /-- `Fatal(MemoryOutOfRange(a), ipc, w)`, `a` the smallest out-of-range address. -/
  | memoryOutOfRange (a : Nat) (ipc w : Word)
  /-- `Halted(K)`, `K` the kind latched by the earlier fatal result. -/
  | halted (k : ErrorKind)
deriving DecidableEq, Repr

/-- The operations the host invokes, one at a time (10_state.md R50). -/
inductive HostOp where
  /-- `CYCLE(keys, rand)` (R51). -/
  | cycle (keys : Word) (rand : Byte)
  /-- `TICK()` (R52, R270). -/
  | tick
  /-- `READ()` (R53). -/
  | read
  /-- `RESET(image)` (R54). -/
  | reset (image : List Byte)
deriving DecidableEq, Repr

/-- Memory contents that differ from what construction left (R29, R60): pairs of an address and its byte, in rising
address order, none equal to what an unlisted address reads as. -/
abbrev Memory := List Host.Cell

/-- What an address nothing has written reads as: the font at 0 to 79 and zero elsewhere (R63, R290). -/
def Memory.initial (font : Vector Byte fontLen) (a : Nat) : Byte :=
  if h : a < fontLen then font[a] else 0

/-- The machine. -/
structure State where
  /-- The parameters of the machine, fixed for its lifetime (R6, R35, R38); no operation changes them. -/
  cfg : Config
  /-- General registers V0 to VF (R20). -/
  V : Vector Byte 16
  /-- Index register (R24). -/
  I : Word
  /-- Program counter (R25). -/
  pc : Word
  /-- Stack pointer, the number of entries in use (R26). -/
  SP : Nat
  /-- Call stack, `STACK_DEPTH` entries (R26). -/
  STACK : List Word
  /-- Delay timer (R28). -/
  DT : Byte
  /-- Sound timer (R28). -/
  ST : Byte
  /-- Memory (R29). -/
  M : Memory
  /-- Display buffer, row 0 at the top (R30). -/
  DISP : Vector Row 32
  /-- The latch of the first fatal error (R36). -/
  halted : Option ErrorKind
  /-- Keypad bitmask of the cycle in hand (R33, R34): an input, latched by the cycle (R120) before its handler reads it;
  no later cycle reads it. -/
  KEYS : Word
  /-- The byte `rand8()` answers in the cycle in hand (R13, R51): an input, latched by the cycle (R120). -/
  rand : Byte
  /-- MODEL FIELD: how many cycles have drawn free inputs: the ticks before the cycle, keys and random byte (assumption log 2
  and 3). -/
  draws : Nat
  /-- MODEL FIELD: the host operations still to come, oldest first (R50); when there are none, ticks and cycles go on as
  the free values say (assumption log 2). -/
  pending : List HostOp
  /-- MODEL FIELD: the result the latest `CYCLE` returned to the host (R51, R250); none before the first. -/
  result : Option CycleResult
deriving DecidableEq, Repr

/-- Why the machine stops with no state left. -/
inductive Fault where
  /-- Raised by the host operation `RESET` for an image of this length that does not fit: `LoadError`, after which
  there is no machine (R54, R257, R291, I21). Safe: the spec gives no machine to go on with. -/
  | loadError (length : Nat)
deriving DecidableEq, Repr

/-- Why the model has no meaning to give. -/
inductive Refusal where
  /-- Raised by an arm of `exec` whose instruction has no meaning in the model. Safe: nothing is claimed of it. No arm
  raises it. -/
  | notModelled (mnemonic : String)
deriving DecidableEq, Repr

/-- The machine right after construction from an empty image under the default parameters (R290): registers, timers,
stack, display and keypad zero, pc at `ENTRY_PC`, memory the font and zeros, no error latched. -/
def State.reset : State where
  cfg := Config.default
  V := Vector.replicate 16 0
  I := 0
  pc := Config.default.entryPc
  SP := 0
  STACK := List.replicate Config.default.stackDepth 0
  DT := 0
  ST := 0
  M := []
  DISP := Vector.replicate 32 0
  halted := none
  KEYS := 0
  rand := 0
  draws := 0
  pending := []
  result := none

end Sys2Proof.Machine
end

