-- ==== Sys2Proof/Machine/Ops.lean ====
section
/-! DEFINITION. The named operations over memory, registers, the call stack and the display, and raising a fatal
error (spec 10_state.md, 20_memory.md, 60_exceptions.md). -/

namespace Sys2Proof.Machine

/-! ## Memory (R29, R60, R70) -/

/-- The listed byte of an address, if the memory lists one. -/
def Memory.lookup : Memory → Nat → Option Byte
  | [], _ => none
  | (b, v) :: rest, a => if a = b then some v else Memory.lookup rest a

/-- List a byte at an address, in rising order, in place of the one listed there. -/
def Memory.put : Memory → Nat → Byte → Memory
  | [], a, v => [(a, v)]
  | (b, w) :: rest, a, v =>
    if a < b then (a, v) :: (b, w) :: rest
    else if a = b then (a, v) :: rest
    else (b, w) :: Memory.put rest a v

/-- `M[a]` (R11, R70). -/
def Memory.read (font : Vector Byte fontLen) (m : Memory) (a : Nat) : Byte :=
  (m.lookup a).getD (Memory.initial font a)

/-- `M[a] <- v` (R11, R70), keeping the canonical form: a byte equal to what the address reads as unlisted is not
listed. -/
def Memory.write (font : Vector Byte fontLen) (m : Memory) (a : Nat) (v : Byte) : Memory :=
  if v = Memory.initial font a then m.filter (fun c => c.1 ≠ a) else m.put a v

/-- One-byte writes in list order (R65). -/
def Memory.writeAll (font : Vector Byte fontLen) : Memory → List Host.Cell → Memory
  | m, [] => m
  | m, (a, v) :: rest => Memory.writeAll font (Memory.write font m a v) rest

/-- The canonical form: addresses strictly rising, no entry equal to what its address reads as unlisted. -/
def Memory.wf (font : Vector Byte fontLen) (m : Memory) : Bool :=
  decide (m.Pairwise fun c d => c.1 < d.1) && m.all fun c => c.2 ≠ Memory.initial font c.1

/-- Every listed address exists (R60). -/
def Memory.within (size : Nat) (m : Memory) : Bool := m.all fun c => c.1 < size

/-- `MemRead(a, 1)` (R11). -/
def State.readByte (s : State) (a : Nat) : Byte := s.M.read s.cfg.font a

/-- `MemWrite` of each listed byte, in order (R11, R65). -/
def State.writeBytes (s : State) (cells : List Host.Cell) : State :=
  { s with M := s.M.writeAll s.cfg.font cells }

/-! ## Registers, stack, display -/

/-- `V[x]` (R10, R20). -/
def State.reg (s : State) (x : Reg) : Byte := s.V[x]

/-- `V[x] <- v` (R10, R20): every register is an ordinary destination, VF among them (R21). -/
def State.setReg (s : State) (x : Reg) (v : Byte) : State := { s with V := s.V.set x v }

/-- `V[k] <- bytes[k]` for each `k` the list has a byte for (R195). -/
def State.loadRegBlock (s : State) (bytes : List Byte) : State :=
  { s with V := Vector.ofFn fun r : Reg => bytes[r.val]?.getD (s.reg r) }

/-- `STACK[k]` (R26). An index the stack does not have reads as zero; the invariant `State.Inv` rules it out (R27;
assumption log 6). -/
def State.stackEntry (s : State) (k : Nat) : Word := s.STACK[k]?.getD 0

/-- `STACK[SP] <- v; SP <- SP + 1` (R142). -/
def State.push (s : State) (v : Word) : State := { s with STACK := s.STACK.set s.SP v, SP := s.SP + 1 }

/-- `SP <- SP - 1` (R140); the entry above it is left as it is. -/
def State.pop (s : State) : State := { s with SP := s.SP - 1 }

/-- `pc <- v` (R10, R25). -/
def State.setPc (s : State) (v : Word) : State := { s with pc := v }

/-- `I <- v` (R10, R24). -/
def State.setI (s : State) (v : Word) : State := { s with I := v }

/-- `DT <- v` (R10, R28). -/
def State.setDT (s : State) (v : Byte) : State := { s with DT := v }

/-- `ST <- v` (R10, R28). -/
def State.setST (s : State) (v : Byte) : State := { s with ST := v }

/-- `DISP[r]` (R30). -/
def State.row (s : State) (r : Fin 32) : Row := s.DISP[r]

/-- `DISP <- d`, every row (R30). -/
def State.setDisplay (s : State) (d : Vector Row 32) : State := { s with DISP := d }

/-- Column `c` of display row `r`: bit `63 - c` (R31). -/
def State.pixel (s : State) (r : Fin 32) (c : Fin 64) : Bool := (s.row r).getLsbD (63 - c.val)

/-! ## The program counter within a cycle -/

/-- The address of the instruction being executed: the fetch has already advanced pc by 2 (R122, R25). -/
def State.ipc (s : State) : Word := s.pc - 2

/-- Pass over the next word when the condition holds (R126, R127, R143). -/
def State.skipIf (s : State) (c : Bool) : State := if c then s.setPc (s.pc + 2) else s

/-! ## Taking an error

`raise K(info)` (R12, R125, R256, R259) is the core's only exception entry. It saves no register, changes no mode and
transfers control to no handler (R260): it latches the kind in `halted` and hands the typed result to the host, the pc
keeping the fetch's advance. No instruction returns from it (R261): only `RESET` clears the latch. -/
def State.raise (s : State) (k : ErrorKind) (r : CycleResult) : Host.Outcome State Fault Refusal :=
  .next { s with halted := some k, result := some r }

/-- `MemoryOutOfRange(a)` of the instruction whose word is `w` (R66, R255). -/
def State.raiseOutOfRange (s : State) (w : Word) (a : Nat) : Host.Outcome State Fault Refusal :=
  s.raise .memoryOutOfRange (.memoryOutOfRange a s.ipc w)

end Sys2Proof.Machine
end

