-- ==== Sys2Proof/Machine/Flags.lean ====
section
/-! DEFINITION. Results and flags of the flag-writing instructions (42_arith_logic.md R166 to R174): exact arithmetic
on naturals and integers, then reduction to 8 bits. VF is the only flag (R23). -/

namespace Sys2Proof.Machine

/-- `bool(c)` as a register value (R9). -/
def flagByte (c : Bool) : Byte := if c then 1 else 0

/-- A result and the value of VF that goes with it. -/
structure Flagged where
  result : Byte
  flag : Byte
deriving DecidableEq, Repr

/-- ADD: the sum mod 256 and carry `a + b > 255` (R166, R172). -/
def addFlagged (a b : Byte) : Flagged where
  result := BitVec.ofNat 8 (a.toNat + b.toNat)
  flag := flagByte (decide (255 < a.toNat + b.toNat))

/-- `a - b` mod 256 and no-borrow `a ≥ b` (R167, R172); SUBN is this with the operands exchanged (R169). -/
def subFlagged (a b : Byte) : Flagged where
  result := BitVec.ofInt 8 ((a.toNat : Int) - (b.toNat : Int))
  flag := flagByte (decide (b.toNat ≤ a.toNat))

/-- SHR: the value shifted right by one and the bit shifted out (R168). -/
def shrFlagged (a : Byte) : Flagged where
  result := a >>> 1
  flag := flagByte (a.getLsbD 0)

/-- SHL: the value shifted left by one within 8 bits and the bit shifted out (R170). -/
def shlFlagged (a : Byte) : Flagged where
  result := a <<< 1
  flag := flagByte (a.getLsbD 7)

/-- Write the result to `V[x]` and the flag to VF, in the order `VF_WRITE_ORDER` gives; it matters when x = 15 (R173). -/
def State.setFlagged (s : State) (x : Reg) (r : Flagged) : State :=
  match s.cfg.vfWriteOrder with
  | .flagLast => (s.setReg x r.result).setReg VF r.flag
  | .resultLast => (s.setReg VF r.flag).setReg x r.result

end Sys2Proof.Machine
end

