-- ==== Sys2Proof/Machine/Operands.lean ====
section
/-! DEFINITION. Operand forms: immediates (30_encoding.md R93), the data addresses `EA(I + k)` (20_memory.md R66 to
R68), key numbers (45_timer_keypad.md), decimal digits and glyph addresses (43_memory_index.md). -/

namespace Sys2Proof.Machine

/-- `zext_16` of the 12-bit address immediate (R93). -/
def zextAddr (nnn : Addr12) : Word := nnn.zeroExtend 16

/-- `zext_16` of a register value (R93). -/
def zextByte (v : Byte) : Word := v.zeroExtend 16

/-- `EA(a)` of a computed data address, a natural number; the error carries the out-of-range address (R66). -/
def effectiveAddr (cfg : Config) (a : Nat) : Except Nat Nat :=
  if a < cfg.memSize then .ok a
  else match cfg.boundsPolicy with
    | .fail => .error a
    | .wrap => .ok (a % cfg.memSize)

/-- All of `EA(base), EA(base + 1), ...`, `count` of them, resolved in rising order before any access; the error is the
smallest out-of-range address (R67, R68). -/
def resolve (cfg : Config) (base : Nat) : Nat → Except Nat (List Nat)
  | 0 => .ok []
  | n + 1 =>
    match effectiveAddr cfg base with
    | .error a => .error a
    | .ok a =>
      match resolve cfg (base + 1) n with
      | .error b => .error b
      | .ok rest => .ok (a :: rest)

/-- An instruction that accesses `count` bytes at `I`: it raises `MemoryOutOfRange` with no other effect, or has the
effect `k` gives for the resolved addresses (R65, R67). `w` is the instruction's word. -/
def State.withDataAddrs (s : State) (w : Word) (count : Nat) (k : List Nat → State) :
    Host.Outcome State Fault Refusal :=
  match resolve s.cfg s.I.toNat count with
  | .error a => s.raiseOutOfRange w a
  | .ok addrs => .next (k addrs)

/-- `pressed(k)` for a key number held in a register: numbers of 16 and more name no key (45_timer_keypad.md, D12). -/
def keyPressed (keys : Word) (k : Byte) : Bool := decide (k.toNat < 16) && keys.getLsbD k.toNat

/-- The lowest-numbered held key (R235). -/
def lowestKey (keys : Word) : Option Nat := (List.range 16).find? fun k => keys.getLsbD k

/-- The three decimal digits of a byte, most significant first (R193). -/
def bcdDigits (v : Byte) : List Byte :=
  [BitVec.ofNat 8 (v.toNat / 100), BitVec.ofNat 8 (v.toNat / 10 % 10), BitVec.ofNat 8 (v.toNat % 10)]

/-- The address of the glyph of a register value, not reduced to a hexadecimal digit (R192, I6). -/
def glyphAddr (v : Byte) : Word := BitVec.ofNat 16 (v.toNat * glyphHeight)

end Sys2Proof.Machine
end

