-- ==== Sys2Proof/Machine/Control.lean ====
section
/-! DEFINITION. Control flow (41_control_flow.md R140 to R147). On entry pc is the instruction's address plus 2
(R122). -/

namespace Sys2Proof.Machine

/-- RET (R140). -/
def execRet (u : Nibble) (s : State) : Host.Outcome State Fault Refusal :=
  if s.SP = 0 then s.raise .stackUnderflow (.stackUnderflow s.ipc (encode (.ret u)))
  else .next (s.pop.setPc (s.stackEntry (s.SP - 1)))

/-- JP nnn (R141). -/
def execJp (nnn : Addr12) (s : State) : Host.Outcome State Fault Refusal :=
  .next (s.setPc (zextAddr nnn))

/-- CALL nnn (R142): the pushed value is the address of the following instruction. -/
def execCall (nnn : Addr12) (s : State) : Host.Outcome State Fault Refusal :=
  if s.SP = s.cfg.stackDepth then s.raise .stackOverflow (.stackOverflow s.ipc (encode (.call nnn)))
  else .next ((s.push s.pc).setPc (zextAddr nnn))

/-- SE Vx, kk (R143). -/
def execSeImm (x : Reg) (kk : Byte) (s : State) : Host.Outcome State Fault Refusal :=
  .next (s.skipIf (s.reg x == kk))

/-- SNE Vx, kk (R144). -/
def execSneImm (x : Reg) (kk : Byte) (s : State) : Host.Outcome State Fault Refusal :=
  .next (s.skipIf (s.reg x != kk))

/-- SE Vx, Vy (R145). -/
def execSeReg (x y : Reg) (s : State) : Host.Outcome State Fault Refusal :=
  .next (s.skipIf (s.reg x == s.reg y))

/-- SNE Vx, Vy (R146). -/
def execSneReg (x y : Reg) (s : State) : Host.Outcome State Fault Refusal :=
  .next (s.skipIf (s.reg x != s.reg y))

/-- JP V0, nnn (R147): the sum is not reduced to 12 bits and cannot pass 16. -/
def execJpV0 (nnn : Addr12) (s : State) : Host.Outcome State Fault Refusal :=
  .next (s.setPc (zextAddr nnn + zextByte (s.reg 0)))

end Sys2Proof.Machine
end

