-- ==== Sys2Proof/Machine/Display.lean ====
section
/-! DEFINITION. Display: clear screen, the sprite-XOR compositor and the draw instruction (44_display.md R210 to
R216). -/

namespace Sys2Proof.Machine

/-- `rotr64(v, s)` for s up to 63 (R9). -/
def rotr64 (v : Row) (s : Nat) : Row := (v >>> s) ||| (v <<< (64 - s))

/-- The row mask of a sprite byte at horizontal offset `h`: its leftmost pixel on column `h`, wrapping (R211). -/
def spriteMask (b : Byte) (h : Nat) : Row := rotr64 (b.zeroExtend 64 <<< 56) h

/-- The same mask by the split form: no wrap up to offset 56, two parts beyond (R212). -/
def spriteMaskSplit (b : Byte) (h : Nat) : Row :=
  if h ≤ 56 then b.zeroExtend 64 <<< (56 - h)
  else (b >>> (h - 56)).zeroExtend 64 ||| ((BitVec.ofNat 64 (b.toNat % 2 ^ (h - 56))) <<< (120 - h))

/-- `COMPOSE(row, b, h)`: the new row and whether a lit pixel was turned off (R211). -/
def compose (row : Row) (b : Byte) (h : Nat) : Row × Bool :=
  (row ^^^ spriteMask b h, decide (row &&& spriteMask b h ≠ 0))

/-- The screen row of sprite row `r` of a sprite whose top is at `v0`: vertical wrap (R213, R215). -/
def screenRow (v0 r : Nat) : Fin 32 := Fin.ofNat 32 (v0 + r)

/-- Composite the sprite rows `bytes`, the first of them at screen row `screenRow v0 0`, top to bottom; the flag is the
OR of the rows' collisions (R213, R214). -/
def drawRows (h : Nat) : Nat → List Byte → Vector Row 32 → Vector Row 32 × Bool
  | _, [], d => (d, false)
  | v0, b :: rest, d =>
    let here := compose d[screenRow v0 0] b h
    let below := drawRows h (v0 + 1) rest (d.set (screenRow v0 0) here.1)
    (below.1, here.2 || below.2)

/-- CLS (R210). -/
def execCls (s : State) : Host.Outcome State Fault Refusal :=
  .next (s.setDisplay (Vector.replicate 32 0))

/-- DRW Vx, Vy, n (R213): the coordinates are read before VF is written; `I` is not changed. -/
def execDrw (x y : Reg) (n : Nibble) (s : State) : Host.Outcome State Fault Refusal :=
  s.withDataAddrs (encode (.drw x y n)) n.toNat fun addrs =>
    let drawn := drawRows ((s.reg x).toNat % 64) ((s.reg y).toNat % 32) (addrs.map s.readByte) s.DISP
    (s.setDisplay drawn.1).setReg VF (flagByte drawn.2)

end Sys2Proof.Machine
end

