-- ==== Sys2Proof/Machine/Index.lean ====
section
/-! DEFINITION. Index register, BCD and register-block transfers (43_memory_index.md R190 to R195). -/

namespace Sys2Proof.Machine

/-- LD I, nnn (R190). -/
def execLdI (nnn : Addr12) (s : State) : Host.Outcome State Fault Refusal :=
  .next (s.setI (zextAddr nnn))

/-- ADD I, Vx (R191): mod 2^16, no flag. -/
def execAddI (x : Reg) (s : State) : Host.Outcome State Fault Refusal :=
  .next (s.setI (s.I + zextByte (s.reg x)))

/-- LD F, Vx (R192). -/
def execLdF (x : Reg) (s : State) : Host.Outcome State Fault Refusal :=
  .next (s.setI (glyphAddr (s.reg x)))

/-- LD B, Vx (R193): `I` is not changed. -/
def execLdB (x : Reg) (s : State) : Host.Outcome State Fault Refusal :=
  s.withDataAddrs (encode (.ldB x)) 3 fun addrs => s.writeBytes (addrs.zip (bcdDigits (s.reg x)))

/-- LD [I], Vx (R194): V0 to Vx to memory, then `I` advances by x + 1. -/
def execStoreRegs (x : Reg) (s : State) : Host.Outcome State Fault Refusal :=
  s.withDataAddrs (encode (.storeRegs x)) (x.val + 1) fun addrs =>
    (s.writeBytes (addrs.zip s.V.toList)).setI (s.I + BitVec.ofNat 16 (x.val + 1))

/-- LD Vx, [I] (R195): V0 to Vx from memory, then `I` advances by x + 1. -/
def execLoadRegs (x : Reg) (s : State) : Host.Outcome State Fault Refusal :=
  s.withDataAddrs (encode (.loadRegs x)) (x.val + 1) fun addrs =>
    (s.loadRegBlock (addrs.map s.readByte)).setI (s.I + BitVec.ofNat 16 (x.val + 1))

end Sys2Proof.Machine
end

