-- ==== Sys2Proof/Machine/Keypad.lean ====
section
/-! DEFINITION. Keypad tests, timer transfers and wait-for-key (45_timer_keypad.md R230 to R236). -/

namespace Sys2Proof.Machine

/-- SKP Vx (R230). -/
def execSkp (x : Reg) (s : State) : Host.Outcome State Fault Refusal :=
  .next (s.skipIf (keyPressed s.KEYS (s.reg x)))

/-- SKNP Vx (R231). -/
def execSknp (x : Reg) (s : State) : Host.Outcome State Fault Refusal :=
  .next (s.skipIf (!keyPressed s.KEYS (s.reg x)))

/-- LD Vx, DT (R232). -/
def execLdVxDT (x : Reg) (s : State) : Host.Outcome State Fault Refusal :=
  .next (s.setReg x s.DT)

/-- LD Vx, K (R235): with no key held the pc goes back to this instruction, and nothing else changes. -/
def execLdVxK (x : Reg) (s : State) : Host.Outcome State Fault Refusal :=
  .next (match lowestKey s.KEYS with
    | none => s.setPc (s.pc - 2)
    | some k => s.setReg x (BitVec.ofNat 8 k))

/-- LD DT, Vx (R233). -/
def execLdDTVx (x : Reg) (s : State) : Host.Outcome State Fault Refusal :=
  .next (s.setDT (s.reg x))

/-- LD ST, Vx (R234). -/
def execLdSTVx (x : Reg) (s : State) : Host.Outcome State Fault Refusal :=
  .next (s.setST (s.reg x))

end Sys2Proof.Machine
end

