-- ==== Sys2Proof/Machine/Cycle.lean ====
section
/-! DEFINITION. The host's four operations (10_state.md R50 to R55): the cycle with its fetch (40_cycle.md R120 to
R125), the timer tick (60_exceptions.md R270), reading the state (R53) and construction from an image
(70_reset_and_hazards.md R290 to R293); and what comes next. -/

namespace Sys2Proof.Machine

/-! ## CYCLE -/

/-- The instruction word at pc, if pc and pc + 1 are memory indices; big-endian, whatever the alignment and the bounds
policy (R64, R69, R121). -/
def State.fetchWord (s : State) : Option Word :=
  if s.pc.toNat + 1 < s.cfg.memSize then
    some (wordOfBytes (s.readByte s.pc.toNat) (s.readByte (s.pc.toNat + 1)))
  else none

/-- The state a handler starts from: pc advanced by 2, the cycle's inputs latched, the result Ok unless the handler
raises (R120, R122). -/
def State.enter (s : State) (keys : Word) (rand : Byte) : State :=
  { s with pc := s.pc + 2, KEYS := keys, rand := rand, result := some .ok }

/-- `CYCLE(keys, rand)` (R51, R120), with the checks in the order of R258. -/
def State.cycle (keys : Word) (rand : Byte) (s : State) : Host.Outcome State Fault Refusal :=
  match s.halted with
  | some k => .next { s with result := some (.halted k) }
  | none =>
    match s.fetchWord with
    | none => s.raise .fetchOutOfBounds (.fetchOutOfBounds s.pc)
    | some w =>
      match decode s.cfg.strictDecode w with
      | .error _ => .next { s with pc := s.pc + 2, result := some (.decodeError w s.pc) }
      | .ok i => exec i (s.enter keys rand)

/-- The numeric code of a result (R250). -/
def CycleResult.code : CycleResult → Nat
  | .ok => 0
  | .decodeError _ _ => 1
  | .fetchOutOfBounds _ => 2
  | .stackOverflow _ _ => 3
  | .stackUnderflow _ _ => 4
  | .memoryOutOfRange _ _ _ => 5
  | .halted _ => 6

/-! ## TICK -/

/-- One timer's decrement: a timer at 0 stays at 0 (R270). -/
def timerTick (t : Byte) : Byte := if 0 < t.toNat then t - 1 else t

/-- `TICK()` (R270). -/
def State.tick (s : State) : State := { s with DT := timerTick s.DT, ST := timerTick s.ST }

/-- One timer after `n` decrements: it counts down to 0 and stays there (R270). -/
def timerTicks (n : Nat) (t : Byte) : Byte := if 0 < t.toNat then BitVec.ofNat 8 (t.toNat - n) else t

/-- `n` ticks, one after another (R270). -/
def State.ticks (n : Nat) (s : State) : State := { s with DT := timerTicks n s.DT, ST := timerTicks n s.ST }

/-! ## READ -/

/-- What `READ()` lets the host see: the display rows and, for the model's observation, the whole architectural state,
memory written out in full (R53). -/
structure Observation where
  V : Vector Byte 16
  I : Word
  pc : Word
  SP : Nat
  STACK : List Word
  DT : Byte
  ST : Byte
  M : List Byte
  DISP : Vector Row 32
  halted : Option ErrorKind
deriving DecidableEq, Repr

/-- `READ()`; it changes no state (R53). -/
def State.observe (s : State) : Observation where
  V := s.V
  I := s.I
  pc := s.pc
  SP := s.SP
  STACK := s.STACK
  DT := s.DT
  ST := s.ST
  M := (List.range s.cfg.memSize).map s.readByte
  DISP := s.DISP
  halted := s.halted

/-! ## RESET -/

/-- The bytes of an image with the addresses they are loaded at (R291). -/
def imageCells : Nat → List Byte → List Host.Cell
  | _, [] => []
  | a, b :: rest => (a, b) :: imageCells (a + 1) rest

/-- The result of `RESET` (R54). -/
inductive LoadResult where
  | loadOk (s : State)
  | loadError
deriving DecidableEq, Repr

/-- The constructed machine before its program is copied in (R290, R292). -/
def State.blank (cfg : Config) : State :=
  { State.reset with cfg := cfg, pc := cfg.entryPc, STACK := List.replicate cfg.stackDepth 0 }

/-- `RESET(image)` under the parameters of the machine: `LoadError` for an image longer than memory from `PROG_START`
on, else the image copied in verbatim (R54, R257, R291). -/
def construct (cfg : Config) (image : List Byte) : LoadResult :=
  if image.length + progStart ≤ cfg.memSize then
    .loadOk ((State.blank cfg).writeBytes (imageCells progStart image))
  else .loadError

/-! ## What comes next -/

/-- One operation of the host (R50). `RESET` of a live machine discards all its state (R293) and keeps only what is the
host's: the operations still to come and the count of free draws. After `LoadError` there is no machine (I21). -/
def State.hostOp (op : HostOp) (s : State) : Host.Outcome State Fault Refusal :=
  match op with
  | .cycle keys rand => s.cycle keys rand
  | .tick => .next s.tick
  | .read => .next s
  | .reset image =>
    match construct s.cfg image with
    | .loadOk t => .next { t with draws := s.draws, pending := s.pending }
    | .loadError => .fault (.loadError image.length)

/-- What comes next: the first pending operation, or else a free number of ticks and then a cycle on a fresh free keypad
value and a fresh free random byte, so that every interleaving of CYCLE and TICK is admitted (R271, R34, R13; assumption
log 2 and 3). -/
def State.nextOp (s : State) : Host.Outcome State Fault Refusal :=
  match s.pending with
  | [] => ({ s with draws := s.draws + 1 }.ticks (Config.freeTicks s.draws)).cycle (Config.freeKeys s.draws)
      (Config.freeRand s.draws)
  | op :: rest => { s with pending := rest }.hostOp op

/-- Whether an operation is a cycle. -/
def HostOp.isCycle : HostOp → Bool
  | .cycle _ _ => true
  | .tick => false
  | .read => false
  | .reset _ => false

/-- The state with word `w` in the two bytes the next fetch reads, no error latched, and no operation pending before the
next cycle. -/
def State.placeWord (s : State) (w : Word) : State :=
  { s.writeBytes [(s.pc.toNat, highByte w), (s.pc.toNat + 1, lowByte w)] with
    halted := none
    pending := s.pending.dropWhile fun op => !op.isCycle }

end Sys2Proof.Machine
end

