-- ==== Sys2Proof/Machine/Step.lean ====
section
/-! DEFINITION. One step of the machine: the host's next pending operation (10_state.md R50), or with none pending
a cycle (40_cycle.md R120) after a free number of ticks (60_exceptions.md R271). -/

namespace Sys2Proof.Machine

/-- One step. -/
def step (s : State) : Host.Outcome State Fault Refusal := s.nextOp

/-- The state in which the next step fetches and runs the instruction word `w`, its bits numbered as
spec/opcode_table.json numbers them (assumption log 4). -/
def State.withFetchWord (s : State) (nbits w : Nat) : State := s.placeWord (BitVec.ofNat 16 (w % 2 ^ nbits))

end Sys2Proof.Machine
end

