-- ==== Sys2Proof/Safety.lean ====
section
/-! DEFINITION. The terms claims use: the invariant of the machine's state, a run without a fatal error, the self-loop
of 40_cycle.md R129, several steps in a row, frames (what stays unchanged from one state to another), and the write columns of the access
table 10_state.md R42. -/

namespace Sys2Proof.Machine

/-- What every reachable state meets: the parameters' relations (R7), the stack bound (R26, R27) and the canonical
memory within the address space (R60). -/
structure State.Inv (s : State) : Prop where
  cfgWf : s.cfg.wf
  spBound : s.SP ≤ s.cfg.stackDepth
  stackLength : s.STACK.length = s.cfg.stackDepth
  memoryWf : s.M.wf s.cfg.font = true
  memoryWithin : s.M.within s.cfg.memSize = true

/-- No fatal error so far: what a claim about a program takes as its premise (R256). -/
abbrev State.safe (s : State) : Prop := s.halted = none

/-- `self_loop(s)`: the word at pc is a jump to pc (R129). -/
def State.selfLoop (s : State) : Prop :=
  s.pc.toNat + 1 < s.cfg.memSize ∧ ∃ nnn : Addr12, zextAddr nnn = s.pc ∧ s.fetchWord = some (encode (.jp nnn))

/-- The kind a result latches in `halted`, for the fatal results (R250). -/
def CycleResult.fatalKind : CycleResult → Option ErrorKind
  | .ok => none
  | .decodeError _ _ => none
  | .fetchOutOfBounds _ => some .fetchOutOfBounds
  | .stackOverflow _ _ => some .stackOverflow
  | .stackUnderflow _ _ => some .stackUnderflow
  | .memoryOutOfRange _ _ _ => some .memoryOutOfRange
  | .halted k => some k

/-- The addresses `I` to `I + count - 1` can all be accessed: always under `Wrap`, within memory under `Fail`
(R66, R67). -/
def State.accessible (s : State) (count : Nat) : Prop :=
  s.cfg.boundsPolicy = .wrap ∨ s.I.toNat + count ≤ s.cfg.memSize

/-- The address `EA(I + k)` where it can be accessed (R66). -/
def State.dataAddr (s : State) (k : Nat) : Nat :=
  if s.I.toNat + k < s.cfg.memSize then s.I.toNat + k else (s.I.toNat + k) % s.cfg.memSize

/-- `n` steps, one after another; it ends early where a step gives no next state. -/
def runSteps : Nat → State → Host.Outcome State Fault Refusal
  | 0, s => .next s
  | n + 1, s =>
    match step s with
    | .next t => runSteps n t
    | .fault f => .fault f
    | .refused r => .refused r

/-! ## Frames -/

/-- The parts of the state a frame speaks of. -/
inductive Part where
  | regs
  | index
  | pc
  | stack
  | delayTimer
  | soundTimer
  | memory
  | display
  /-- The latch and the result of the cycle. -/
  | error
  /-- The configuration and the cycle's inputs. -/
  | inputs
  /-- The host's pending operations and the count of free draws. -/
  | host
deriving DecidableEq, Repr

/-- A part reads the same in both states: registers, rows and memory byte by byte. -/
def Part.same (s t : State) : Part → Prop
  | .regs => ∀ r, t.reg r = s.reg r
  | .index => t.I = s.I
  | .pc => t.pc = s.pc
  | .stack => t.SP = s.SP ∧ t.STACK = s.STACK
  | .delayTimer => t.DT = s.DT
  | .soundTimer => t.ST = s.ST
  | .memory => ∀ a, t.readByte a = s.readByte a
  | .display => ∀ r, t.row r = s.row r
  | .error => t.halted = s.halted ∧ t.result = s.result
  | .inputs => t.cfg = s.cfg ∧ t.KEYS = s.KEYS ∧ t.rand = s.rand
  | .host => t.pending = s.pending ∧ t.draws = s.draws

/-- Every part but the listed ones is unchanged. -/
def Frame (s t : State) (changed : List Part) : Prop := ∀ p : Part, p ∉ changed → p.same s t

/-- Every register but `x` is unchanged. -/
def OtherRegs (s t : State) (x : Reg) : Prop := ∀ r, r ≠ x → t.reg r = s.reg r

/-- The outcome of a flag-writing instruction: result in `V[x]` and flag in VF, and when x = 15 the one that
`VF_WRITE_ORDER` keeps (R173); no other register changes. -/
def WritesFlagged (s t : State) (x : Reg) (result flag : Nat) : Prop :=
  (x ≠ VF → (t.reg x).toNat = result ∧ (t.reg VF).toNat = flag) ∧
  (x = VF → s.cfg.vfWriteOrder = .flagLast → (t.reg VF).toNat = flag) ∧
  (x = VF → s.cfg.vfWriteOrder = .resultLast → (t.reg VF).toNat = result) ∧
  ∀ r, r ≠ x → r ≠ VF → t.reg r = s.reg r

/-- The parts an instruction may write when it raises no error: the "W" entries of R42. -/
def writtenParts : Instr → List Part
  | .cls _ => [.display]
  | .ret _ | .call _ => [.pc, .stack]
  | .jp _ | .jpV0 _ => [.pc]
  | .seImm _ _ | .sneImm _ _ | .seReg _ _ _ | .sneReg _ _ _ | .skp _ | .sknp _ => [.pc]
  | .ldImm _ _ | .addImm _ _ | .ldReg _ _ | .orReg _ _ | .andReg _ _ | .xorReg _ _ | .addReg _ _ | .subReg _ _
  | .shr _ _ | .subnReg _ _ | .shl _ _ | .rnd _ _ | .ldVxDT _ => [.regs]
  | .ldI _ | .addI _ | .ldF _ => [.index]
  | .drw _ _ _ => [.regs, .display]
  | .ldVxK _ => [.regs, .pc]
  | .ldDTVx _ => [.delayTimer]
  | .ldSTVx _ => [.soundTimer]
  | .ldB _ => [.memory]
  | .storeRegs _ => [.memory, .index]
  | .loadRegs _ => [.regs, .index]

/-- The registers an instruction may write: its destinations, and VF for the six that write it as a flag (R21). -/
def writesReg (i : Instr) (r : Reg) : Prop :=
  match i with
  | .addReg x _ | .subReg x _ | .shr x _ | .subnReg x _ | .shl x _ => r = x ∨ r = VF
  | .drw _ _ _ => r = VF
  | .ldImm x _ | .addImm x _ | .ldReg x _ | .orReg x _ | .andReg x _ | .xorReg x _ | .rnd x _ | .ldVxDT x
  | .ldVxK x => r = x
  | .loadRegs x => r ≤ x
  | .cls _ | .ret _ | .jp _ | .call _ | .seImm _ _ | .sneImm _ _ | .seReg _ _ _ | .sneReg _ _ _ | .ldI _ | .jpV0 _
  | .skp _ | .sknp _ | .ldDTVx _ | .ldSTVx _ | .addI _ | .ldF _ | .ldB _ | .storeRegs _ => False

/-- The pc after an instruction that completes, `s.pc` being its address plus 2 (R126). -/
def pcAfter (i : Instr) (s : State) : Word :=
  match i with
  | .jp nnn => zextAddr nnn
  | .call nnn => zextAddr nnn
  | .jpV0 nnn => zextAddr nnn + zextByte (s.reg 0)
  | .ret _ => s.stackEntry (s.SP - 1)
  | .seImm x kk => if s.reg x = kk then s.pc + 2 else s.pc
  | .sneImm x kk => if s.reg x ≠ kk then s.pc + 2 else s.pc
  | .seReg x y _ => if s.reg x = s.reg y then s.pc + 2 else s.pc
  | .sneReg x y _ => if s.reg x ≠ s.reg y then s.pc + 2 else s.pc
  | .skp x => if keyPressed s.KEYS (s.reg x) = true then s.pc + 2 else s.pc
  | .sknp x => if keyPressed s.KEYS (s.reg x) = false then s.pc + 2 else s.pc
  | .ldVxK _ => if s.KEYS = 0 then s.pc - 2 else s.pc
  | .cls _ | .ldImm _ _ | .addImm _ _ | .ldReg _ _ | .orReg _ _ | .andReg _ _ | .xorReg _ _ | .addReg _ _
  | .subReg _ _ | .shr _ _ | .subnReg _ _ | .shl _ _ | .ldI _ | .rnd _ _ | .drw _ _ _ | .ldVxDT _ | .ldDTVx _
  | .ldSTVx _ | .addI _ | .ldF _ | .ldB _ | .storeRegs _ | .loadRegs _ => s.pc

/-- The pixel a sprite byte drawn at horizontal offset `h` puts on column `c`: pixel `p` of the byte, 0 leftmost, lands
on column `(h + p) mod 64` (R31, R211). -/
def spritePixel (b : Byte) (h c : Nat) : Bool :=
  decide ((c + (64 - h)) % 64 < 8) && b.getLsbD (7 - (c + (64 - h)) % 64)

/-- The sprite pixel that a draw of `n` rows from `I` with its top left corner at column `h` and row `v0` puts on row
`r` and column `c` of the screen, both axes wrapping (R213, R215): sprite row `r - v0` mod 32, if the sprite has it. -/
def State.spriteAt (s : State) (h v0 n : Nat) (r : Fin 32) (c : Fin 64) : Bool :=
  decide ((r.val + (32 - v0)) % 32 < n) && spritePixel (s.readByte (s.dataAddr ((r.val + (32 - v0)) % 32))) h c.val

/-- The instruction `i`, whose word is `w`, raises `MemoryOutOfRange` of the smallest address it cannot access and has
no other effect (R67, R255, R259). -/
def RaisesOutOfRange (i : Instr) (w : Word) (s : State) : Prop :=
  ∃ t, exec i s = .next t ∧ t.halted = some .memoryOutOfRange ∧
    t.result = some (.memoryOutOfRange (max s.I.toNat s.cfg.memSize) (s.pc - 2) w) ∧ Frame s t [.error]

end Sys2Proof.Machine
end

