-- ==== Sys2Proof/Certificates/Slice0/Obligations.lean ====
section
/-! DEFINITION. The statements for the provers, from the numbered rules of spec/. In the statements about `exec`, `s.pc`
is the address of the instruction plus 2, as a handler reads it (R122), and `s.pc - 2` is `ipc`. An instruction's
statement opens with its word, laid out from the pattern the spec gives (R103). -/

open Sys2Proof Sys2Proof.Machine

/-! ## Construction, the invariant, the host's operations -/

/-- The invariant (SP bound, stack size, canonical memory inside the address space, parameters of R7) holds right after
reset (R27, R60, R290). -/
def Obligations.ResetMeetsInvariant : Prop := State.reset.Inv

/-- Construction from any image that fits meets the invariant (R27, R60, R290, R291). -/
def Obligations.ConstructionMeetsInvariant : Prop :=
  ∀ (cfg : Config) (image : List Byte) (s : State), cfg.wf → construct cfg image = .loadOk s → s.Inv

/-- R290, R291: an image that fits is accepted and the machine holds the listed values; one that does not fit gives
`LoadError`. The values of pc and `halted`, and that an empty image is accepted, are the spec's decisions D5, D16 and D29. -/
def Obligations.ConstructionFollowsImage : Prop :=
  ∀ (cfg : Config) (image : List Byte), cfg.wf →
    (image.length ≤ cfg.memSize - 0x200 → ∃ s, construct cfg image = .loadOk s ∧ s.cfg = cfg ∧
      (∀ r, s.reg r = 0) ∧ s.I = 0 ∧ s.pc = cfg.entryPc ∧
      s.SP = 0 ∧ s.STACK.length = cfg.stackDepth ∧ (∀ k, k < cfg.stackDepth → s.stackEntry k = 0) ∧
      s.DT = 0 ∧ s.ST = 0 ∧
      (∀ a (h : a < 80), s.readByte a = cfg.font[a]) ∧
      (∀ a, 80 ≤ a → a < 0x200 → s.readByte a = 0) ∧
      (∀ k (h : k < image.length), s.readByte (0x200 + k) = image[k]) ∧
      (∀ a, 0x200 + image.length ≤ a → a < cfg.memSize → s.readByte a = 0) ∧
      (∀ r c, s.pixel r c = false) ∧ s.KEYS = 0 ∧ s.halted = none) ∧
    (cfg.memSize - 0x200 < image.length → construct cfg image = .loadError)

/-- R293: RESET of a live machine discards all its state and constructs a new one; a load error leaves no machine
(R54, R257; the spec's decision D29). That the operations still to come survive is the model's (assumption log 8). -/
def Obligations.ResetDiscardsLiveMachine : Prop :=
  ∀ (s : State) (image : List Byte) (rest : List HostOp), s.pending = .reset image :: rest →
    (∀ u, construct s.cfg image = .loadOk u → ∃ t, step s = .next t ∧ t.observe = u.observe ∧
      t.halted = none ∧ t.result = none ∧ t.KEYS = 0 ∧ t.cfg = s.cfg ∧ t.pending = rest) ∧
    (construct s.cfg image = .loadError → step s = .fault (.loadError image.length))

/-- R270: TICK decrements each timer that is not 0 and touches nothing else; that a timer stays at 0 is the spec's
decision D13. -/
def Obligations.TickDecrementsTimers : Prop :=
  ∀ (s : State) (rest : List HostOp), s.pending = .tick :: rest → ∃ t, step s = .next t ∧
    t.DT.toNat = s.DT.toNat - 1 ∧ t.ST.toNat = s.ST.toNat - 1 ∧
    t.pending = rest ∧ t.draws = s.draws ∧ Frame s t [.delayTimer, .soundTimer, .host]

/-- R53: READ changes no state and shows the display rows and the architectural state, memory byte by byte (the spec's
decision D20; assumption log 9). -/
def Obligations.ReadChangesNothing : Prop :=
  ∀ (s : State) (rest : List HostOp), s.pending = .read :: rest → ∃ t, step s = .next t ∧
    t.pending = rest ∧ t.draws = s.draws ∧ Frame s t [.host] ∧ t.observe = s.observe ∧
    (∀ r : Fin 32, s.observe.DISP[r] = s.row r) ∧ s.observe.M.length = s.cfg.memSize ∧
    (∀ a, a < s.cfg.memSize → s.observe.M[a]? = some (s.readByte a)) ∧
    (∀ r : Reg, s.observe.V[r] = s.reg r) ∧ s.observe.I = s.I ∧ s.observe.pc = s.pc ∧ s.observe.SP = s.SP ∧
    s.observe.STACK = s.STACK ∧ s.observe.DT = s.DT ∧ s.observe.ST = s.ST ∧ s.observe.halted = s.halted

/-- The configuration is fixed for a machine's lifetime (R35, R38), across every operation. -/
def Obligations.ConfigurationIsFixed : Prop := ∀ s t : State, step s = .next t → t.cfg = s.cfg

/-- The invariant is kept by every step, whatever the operation (R27, R60); the canonical form of memory in it is the
model's (assumption log 5). -/
def Obligations.StepKeepsInvariant : Prop := ∀ s t : State, s.Inv → step s = .next t → t.Inv

/-! ## The cycle -/

/-- When the two bytes at pc are memory and decode to `i`, a step is `exec i` with pc advanced by 2, the cycle's inputs
latched and the result Ok (R120 to R123): with nothing pending after a free number of ticks, on a free keypad value and a
free random byte (assumption log 2 and 3), or with a pending CYCLE on its keys and byte. -/
def Obligations.StepRunsDecodedInstruction : Prop :=
  ∀ (s : State) (i : Instr), s.halted = none → s.pc.toNat + 1 < s.cfg.memSize →
    decode s.cfg.strictDecode (s.readByte s.pc.toNat ++ s.readByte (s.pc.toNat + 1)) = .ok i →
    (s.pending = [] → step s = exec i { s.ticks (Config.freeTicks s.draws) with
      pc := s.pc + 2, KEYS := Config.freeKeys s.draws, rand := Config.freeRand s.draws, draws := s.draws + 1,
      result := some .ok }) ∧
    (∀ keys rand rest, s.pending = .cycle keys rand :: rest → step s = exec i { s with
      pc := s.pc + 2, KEYS := keys, rand := rand, pending := rest, result := some .ok })

/-- R121, R252: the word is `(M[pc] << 8) | M[pc + 1]` when both are memory indices, at any alignment and under either
bounds policy; otherwise the cycle is fatal, reads nothing and does not advance pc. -/
def Obligations.FetchIsBigEndianAndChecked : Prop :=
  ∀ (s : State) (keys : Word) (rand : Byte),
    (s.pc.toNat + 1 < s.cfg.memSize → ∃ w, s.fetchWord = some w ∧
      w.toNat = 256 * (s.readByte s.pc.toNat).toNat + (s.readByte (s.pc.toNat + 1)).toNat) ∧
    (s.cfg.memSize ≤ s.pc.toNat + 1 → s.halted = none → ∃ t, s.cycle keys rand = .next t ∧
      t.halted = some .fetchOutOfBounds ∧ t.result = some (.fetchOutOfBounds s.pc) ∧ Frame s t [.error])

/-- R124: a word that selects no handler is reported with its address, and only pc changes, by 2; `halted` is not
set. -/
def Obligations.DecodeErrorAdvancesOnlyPc : Prop :=
  ∀ (s : State) (w : Word) (e : Reject) (keys : Word) (rand : Byte), s.halted = none → s.fetchWord = some w →
    decode s.cfg.strictDecode w = .error e → ∃ t, s.cycle keys rand = .next t ∧
      t.result = some (.decodeError w s.pc) ∧ t.pc = s.pc + 2 ∧ t.halted = none ∧ Frame s t [.pc, .error]

/-- R250, R256: every cycle answers a next state and exactly one result; from a running machine it latches exactly the
kind of a fatal result, from a halted one it returns `Halted` of the latched kind. The codes 0 to 6 and the latch are the
spec's decisions D26 and D16; that a cycle answers a next state whatever its result is the model's (assumption log 7). -/
def Obligations.EveryCycleReturnsOneResult : Prop :=
  ∀ (s : State) (keys : Word) (rand : Byte), ∃ t r, s.cycle keys rand = .next t ∧ t.result = some r ∧ r.code ≤ 6 ∧
    (s.halted = none → t.halted = r.fatalKind ∧ r.code ≠ 6) ∧ (∀ k, s.halted = some k → r = .halted k)

/-- R256: while the latch is set a cycle returns `Halted` and changes no state, TICK still decrements, READ still reads,
and only RESET clears it (the spec's decision D16). -/
def Obligations.HaltedLatchHolds : Prop :=
  ∀ (s : State) (k : ErrorKind), s.halted = some k →
    (∀ keys rand, ∃ t, s.cycle keys rand = .next t ∧ t.halted = some k ∧ t.result = some (.halted k) ∧
      Frame s t [.error]) ∧
    (∀ rest, s.pending = .tick :: rest → ∃ t, step s = .next t ∧ t.halted = some k ∧
      t.DT.toNat = s.DT.toNat - 1 ∧ t.ST.toNat = s.ST.toNat - 1) ∧
    (∀ rest, s.pending = .read :: rest → ∃ t, step s = .next t ∧ t.halted = some k ∧ t.observe = s.observe) ∧
    (∀ t, step s = .next t → (∀ image rest, s.pending ≠ .reset image :: rest) → t.halted = some k)

/-- R259: errors are precise. A fatal result from execution leaves the state before the cycle with only pc advanced by 2
and the latch set, the fetch's leaves pc as well, and a decode error only advances pc. The cycle's inputs are
not state (R38). -/
def Obligations.ErrorsArePrecise : Prop :=
  ∀ (s t : State) (keys : Word) (rand : Byte), s.halted = none → s.cycle keys rand = .next t →
    (t.halted = some .fetchOutOfBounds → Frame s t [.error]) ∧
    (∀ k, t.halted = some k → k ≠ .fetchOutOfBounds → t.pc = s.pc + 2 ∧ Frame s t [.pc, .error, .inputs]) ∧
    (∀ w a, t.result = some (.decodeError w a) → a = s.pc ∧ t.halted = none ∧ t.pc = s.pc + 2 ∧
      Frame s t [.pc, .error])

/-- R258: each instruction has at most one kind of error, CALL only StackOverflow, RET only StackUnderflow, the four
memory instructions only MemoryOutOfRange and that only under `Fail` (R255), every other none. -/
def Obligations.ErrorKindsByInstruction : Prop :=
  ∀ (i : Instr) (s t : State), s.halted = none → exec i s = .next t → t.halted ≠ none →
    (∃ nnn, i = .call nnn ∧ t.halted = some .stackOverflow) ∨
    (∃ u, i = .ret u ∧ t.halted = some .stackUnderflow) ∨
    (((∃ x y n, i = .drw x y n) ∨ (∃ x, i = .ldB x) ∨ (∃ x, i = .storeRegs x) ∨ (∃ x, i = .loadRegs x)) ∧
      s.cfg.boundsPolicy = .fail ∧ t.halted = some .memoryOutOfRange)

/-- R126: the pc after an instruction that completes. -/
def Obligations.PcAfterInstruction : Prop :=
  ∀ (i : Instr) (s t : State), s.halted = none → exec i s = .next t → t.halted = none → t.pc = pcAfter i s

/-- R42: an instruction that completes writes only the state the access table gives it, and only its own registers (R20,
R21); one that raises an error writes nothing but the latch and the result. -/
def Obligations.InstructionsWriteOnlyTheirState : Prop :=
  ∀ (i : Instr) (s t : State), s.halted = none → exec i s = .next t →
    (t.halted = none → Frame s t (writtenParts i) ∧ ∀ r, ¬ writesReg i r → t.reg r = s.reg r) ∧
    (t.halted ≠ none → Frame s t [.error])

/-- What no instruction but the named ones reads, by comparing runs that differ only there: the display is read by DRW
alone (R32), KEYS by SKP, SKNP and LD Vx,K alone (R33), the random byte by RND alone (R51), ST by none (R28). -/
def Obligations.ReadersOfDisplayKeysRandomSound : Prop :=
  ∀ (i : Instr) (s t : State), exec i s = .next t →
    ((∀ x y n, i ≠ .drw x y n) → (∀ u, i ≠ .cls u) → ∀ d, exec i { s with DISP := d } = .next { t with DISP := d }) ∧
    ((∀ x, i ≠ .skp x) → (∀ x, i ≠ .sknp x) → (∀ x, i ≠ .ldVxK x) → ∀ k,
      exec i { s with KEYS := k } = .next { t with KEYS := k }) ∧
    ((∀ x kk, i ≠ .rnd x kk) → ∀ b, exec i { s with rand := b } = .next { t with rand := b }) ∧
    ((∀ x, i ≠ .ldSTVx x) → ∀ v, exec i { s with ST := v } = .next { t with ST := v })

/-! ## Encoding -/

/-- A few words written out from the patterns of R103, one or more of each family, and what they decode to. -/
def Obligations.SampleWordsDecode : Prop :=
  decode false 0b0000000011100000 = .ok (.cls 0) ∧ decode false 0b0000000011101110 = .ok (.ret 0) ∧
  decode false 0b0001101010111100 = .ok (.jp 0xABC) ∧ decode false 0b0011001101000010 = .ok (.seImm 3 0x42) ∧
  decode false 0b0101000100100000 = .ok (.seReg 1 2 0) ∧ decode false 0b1000000100100111 = .ok (.subnReg 1 2) ∧
  decode false 0b1000000100101110 = .ok (.shl 1 2) ∧ decode false 0b1010000100100011 = .ok (.ldI 0x123) ∧
  decode false 0b1101000100100101 = .ok (.drw 1 2 5) ∧ decode false 0b1110001110011110 = .ok (.skp 3) ∧
  decode false 0b1111010100110011 = .ok (.ldB 5) ∧ decode false 0b0000000100100011 = .error .unknownKey0 ∧
  decode true 0b0000000111100000 = .error .keylessBits

/-- Decoding the word of a well-formed instruction gives it back, every operand and both values of `STRICT_DECODE`
(R91 to R103). -/
def Obligations.DecodeOfEncode : Prop :=
  ∀ (strict : Bool) (i : Instr), i.wf strict = true → decode strict (encode i) = .ok i

/-- A word that decodes is the word of exactly the instruction it decodes to, which is well-formed: no word yields two
instructions and no bit is dropped (R106). -/
def Obligations.EncodeOfDecode : Prop :=
  ∀ (strict : Bool) (w : Word) (i : Instr), decode strict w = .ok i → encode i = w ∧ i.wf strict = true

/-- The decode errors are exactly those of R96 to R99 and R101: an unknown low byte in families 0x0, 0xE and 0xF, an
unknown low nibble in family 0x8, and with `STRICT_DECODE` a nonzero bit outside the key. -/
def Obligations.DecodeErrorsExactly : Prop :=
  ∀ (strict : Bool) (w : Word),
    (∃ e, decode strict w = .error e) ↔
      (w.toNat / 4096 = 0x0 ∧ w.toNat % 256 ∉ [0xE0, 0xEE]) ∨
      (w.toNat / 4096 = 0x8 ∧ w.toNat % 16 ∉ [0x0, 0x1, 0x2, 0x3, 0x4, 0x5, 0x6, 0x7, 0xE]) ∨
      (w.toNat / 4096 = 0xE ∧ w.toNat % 256 ∉ [0x9E, 0xA1]) ∨
      (w.toNat / 4096 = 0xF ∧ w.toNat % 256 ∉ [0x07, 0x0A, 0x15, 0x18, 0x1E, 0x29, 0x33, 0x55, 0x65]) ∨
      (strict = true ∧ w.toNat / 4096 = 0x0 ∧ w.toNat / 256 % 16 ≠ 0) ∨
      (strict = true ∧ (w.toNat / 4096 = 0x5 ∨ w.toNat / 4096 = 0x9) ∧ w.toNat % 16 ≠ 0)

/-! ## Control flow -/

/-- R140: RET pops into pc, or is StackUnderflow with nothing written when the stack is empty. -/
def Obligations.ReturnPopsStack : Prop :=
  ∀ (s : State) (u : Nibble),
    decode false (0x0#4 ++ u ++ 0xEE#8) = .ok (.ret u) ∧ decode true 0x00EE#16 = .ok (.ret 0) ∧
    (s.SP ≠ 0 → ∃ t, exec (.ret u) s = .next t ∧ t.SP + 1 = s.SP ∧ t.pc = s.stackEntry t.SP ∧ t.STACK = s.STACK ∧
      Frame s t [.pc, .stack]) ∧
    (s.SP = 0 → ∃ t, exec (.ret u) s = .next t ∧ t.halted = some .stackUnderflow ∧
      t.result = some (.stackUnderflow (s.pc - 2) (0x0#4 ++ u ++ 0xEE#8)) ∧ Frame s t [.error])

/-- R141, R147: JP nnn sets pc to nnn; JP V0, nnn to nnn + V0, not reduced to 12 bits. -/
def Obligations.JumpsSetPc : Prop :=
  ∀ (s : State) (nnn : Addr12) (strict : Bool),
    decode strict (0x1#4 ++ nnn) = .ok (.jp nnn) ∧ decode strict (0xB#4 ++ nnn) = .ok (.jpV0 nnn) ∧
    (∃ t, exec (.jp nnn) s = .next t ∧ t.pc.toNat = nnn.toNat ∧ Frame s t [.pc]) ∧
    (∃ t, exec (.jpV0 nnn) s = .next t ∧ t.pc.toNat = nnn.toNat + (s.reg 0).toNat ∧ Frame s t [.pc])

/-- R142: CALL pushes the address of the following instruction and jumps, or is StackOverflow with nothing written when
the stack is full. That the stack has `STACK_DEPTH` entries is the invariant (R26). -/
def Obligations.CallPushesReturnAddress : Prop :=
  ∀ (s : State) (nnn : Addr12) (strict : Bool),
    decode strict (0x2#4 ++ nnn) = .ok (.call nnn) ∧
    (s.SP < s.cfg.stackDepth → s.STACK.length = s.cfg.stackDepth → ∃ t, exec (.call nnn) s = .next t ∧
      t.stackEntry s.SP = s.pc ∧ t.SP = s.SP + 1 ∧ t.pc.toNat = nnn.toNat ∧
      t.STACK.length = s.STACK.length ∧ (∀ k, k ≠ s.SP → t.stackEntry k = s.stackEntry k) ∧
      Frame s t [.pc, .stack]) ∧
    (s.SP = s.cfg.stackDepth → ∃ t, exec (.call nnn) s = .next t ∧ t.halted = some .stackOverflow ∧
      t.result = some (.stackOverflow (s.pc - 2) (0x2#4 ++ nnn)) ∧ Frame s t [.error])

/-- R149: a call and the return from it, wherever the callee's RET stands, restore pc to the instruction after the call
and SP to its value before. -/
def Obligations.CallThenReturnRestores : Prop :=
  ∀ (s : State) (nnn : Addr12) (u : Nibble) (p : Word), s.SP < s.cfg.stackDepth →
    s.STACK.length = s.cfg.stackDepth → ∃ t r, exec (.call nnn) s = .next t ∧
      exec (.ret u) { t with pc := p } = .next r ∧ r.pc = s.pc ∧ r.SP = s.SP ∧ r.halted = s.halted

/-- R143, R144: SE and SNE on a byte pass over the next word when the register equals, or does not equal, it. -/
def Obligations.SkipsOnImmediate : Prop :=
  ∀ (s : State) (x : Reg) (kk : Byte) (strict : Bool),
    decode strict (0x3#4 ++ x.nibble ++ kk) = .ok (.seImm x kk) ∧
    decode strict (0x4#4 ++ x.nibble ++ kk) = .ok (.sneImm x kk) ∧
    (∃ t, exec (.seImm x kk) s = .next t ∧ Frame s t [.pc] ∧
      t.pc.toNat = if s.reg x = kk then (s.pc.toNat + 2) % 65536 else s.pc.toNat) ∧
    (∃ t, exec (.sneImm x kk) s = .next t ∧ Frame s t [.pc] ∧
      t.pc.toNat = if s.reg x = kk then s.pc.toNat else (s.pc.toNat + 2) % 65536)

/-- R145, R146: SE and SNE on two registers; the low nibble is free, or under `STRICT_DECODE` zero, any other being a
decode error (R101). -/
def Obligations.SkipsOnRegisters : Prop :=
  ∀ (s : State) (x y : Reg) (u : Nibble),
    decode false (0x5#4 ++ x.nibble ++ y.nibble ++ u) = .ok (.seReg x y u) ∧
    decode true (0x5#4 ++ x.nibble ++ y.nibble ++ 0x0#4) = .ok (.seReg x y 0) ∧
    decode false (0x9#4 ++ x.nibble ++ y.nibble ++ u) = .ok (.sneReg x y u) ∧
    decode true (0x9#4 ++ x.nibble ++ y.nibble ++ 0x0#4) = .ok (.sneReg x y 0) ∧
    (u ≠ 0 → (∃ e, decode true (0x5#4 ++ x.nibble ++ y.nibble ++ u) = .error e) ∧
      ∃ e, decode true (0x9#4 ++ x.nibble ++ y.nibble ++ u) = .error e) ∧
    (∃ t, exec (.seReg x y u) s = .next t ∧ Frame s t [.pc] ∧
      t.pc.toNat = if s.reg x = s.reg y then (s.pc.toNat + 2) % 65536 else s.pc.toNat) ∧
    (∃ t, exec (.sneReg x y u) s = .next t ∧ Frame s t [.pc] ∧
      t.pc.toNat = if s.reg x = s.reg y then s.pc.toNat else (s.pc.toNat + 2) % 65536)

/-- R230, R231: SKP passes over the next word when the register names a held key, SKNP when it does not; a number of 16
or more names no key (the spec's decision D12). -/
def Obligations.SkipsOnKeys : Prop :=
  ∀ (s : State) (x : Reg) (strict : Bool),
    decode strict (0xE#4 ++ x.nibble ++ 0x9E#8) = .ok (.skp x) ∧
    decode strict (0xE#4 ++ x.nibble ++ 0xA1#8) = .ok (.sknp x) ∧
    (∃ t, exec (.skp x) s = .next t ∧ Frame s t [.pc] ∧
      t.pc.toNat = if (s.reg x).toNat < 16 ∧ s.KEYS.toNat.testBit (s.reg x).toNat = true
        then (s.pc.toNat + 2) % 65536 else s.pc.toNat) ∧
    (∃ t, exec (.sknp x) s = .next t ∧ Frame s t [.pc] ∧
      t.pc.toNat = if (s.reg x).toNat < 16 ∧ s.KEYS.toNat.testBit (s.reg x).toNat = true
        then s.pc.toNat else (s.pc.toNat + 2) % 65536)

/-! ## Loads, arithmetic, logic -/

/-- R160, R161, R162: LD Vx, kk; ADD Vx, kk modulo 256 with no flag; LD Vx, Vy. -/
def Obligations.LoadsAndImmediateAdd : Prop :=
  ∀ (s : State) (x y : Reg) (kk : Byte) (strict : Bool),
    decode strict (0x6#4 ++ x.nibble ++ kk) = .ok (.ldImm x kk) ∧
    decode strict (0x7#4 ++ x.nibble ++ kk) = .ok (.addImm x kk) ∧
    decode strict (0x8#4 ++ x.nibble ++ y.nibble ++ 0x0#4) = .ok (.ldReg x y) ∧
    (∃ t, exec (.ldImm x kk) s = .next t ∧ t.reg x = kk ∧ OtherRegs s t x ∧ Frame s t [.regs]) ∧
    (∃ t, exec (.addImm x kk) s = .next t ∧ (t.reg x).toNat = ((s.reg x).toNat + kk.toNat) % 256 ∧
      OtherRegs s t x ∧ Frame s t [.regs]) ∧
    (∃ t, exec (.ldReg x y) s = .next t ∧ t.reg x = s.reg y ∧ OtherRegs s t x ∧ Frame s t [.regs])

/-- R163, R164, R165: OR, AND and XOR bit by bit; no flag (the spec's decision D10). -/
def Obligations.LogicIsBitwise : Prop :=
  ∀ (s : State) (x y : Reg) (strict : Bool),
    decode strict (0x8#4 ++ x.nibble ++ y.nibble ++ 0x1#4) = .ok (.orReg x y) ∧
    decode strict (0x8#4 ++ x.nibble ++ y.nibble ++ 0x2#4) = .ok (.andReg x y) ∧
    decode strict (0x8#4 ++ x.nibble ++ y.nibble ++ 0x3#4) = .ok (.xorReg x y) ∧
    (∃ t, exec (.orReg x y) s = .next t ∧ OtherRegs s t x ∧ Frame s t [.regs] ∧
      ∀ j, (t.reg x).getLsbD j = ((s.reg x).getLsbD j || (s.reg y).getLsbD j)) ∧
    (∃ t, exec (.andReg x y) s = .next t ∧ OtherRegs s t x ∧ Frame s t [.regs] ∧
      ∀ j, (t.reg x).getLsbD j = ((s.reg x).getLsbD j && (s.reg y).getLsbD j)) ∧
    (∃ t, exec (.xorReg x y) s = .next t ∧ OtherRegs s t x ∧ Frame s t [.regs] ∧
      ∀ j, (t.reg x).getLsbD j = ((s.reg x).getLsbD j ^^ (s.reg y).getLsbD j))

/-- R166: ADD Vx, Vy is the sum modulo 256 with carry in VF, in the order of R173 (the spec's decision D8) when x = 15. -/
def Obligations.AddSetsCarry : Prop :=
  ∀ (s : State) (x y : Reg) (strict : Bool),
    decode strict (0x8#4 ++ x.nibble ++ y.nibble ++ 0x4#4) = .ok (.addReg x y) ∧
    ∃ t, exec (.addReg x y) s = .next t ∧ Frame s t [.regs] ∧
      WritesFlagged s t x (((s.reg x).toNat + (s.reg y).toNat) % 256)
        (if 255 < (s.reg x).toNat + (s.reg y).toNat then 1 else 0)

/-- R167, R169: SUB and SUBN are the difference modulo 256 with no-borrow in VF, in the order of R173 (D8) when x = 15. -/
def Obligations.SubtractSetsNoBorrow : Prop :=
  ∀ (s : State) (x y : Reg) (strict : Bool),
    decode strict (0x8#4 ++ x.nibble ++ y.nibble ++ 0x5#4) = .ok (.subReg x y) ∧
    decode strict (0x8#4 ++ x.nibble ++ y.nibble ++ 0x7#4) = .ok (.subnReg x y) ∧
    (∃ t, exec (.subReg x y) s = .next t ∧ Frame s t [.regs] ∧
      WritesFlagged s t x (((s.reg x).toNat + 256 - (s.reg y).toNat) % 256)
        (if (s.reg y).toNat ≤ (s.reg x).toNat then 1 else 0)) ∧
    (∃ t, exec (.subnReg x y) s = .next t ∧ Frame s t [.regs] ∧
      WritesFlagged s t x (((s.reg y).toNat + 256 - (s.reg x).toNat) % 256)
        (if (s.reg x).toNat ≤ (s.reg y).toNat then 1 else 0))

/-- R168, R170: SHR and SHL shift Vx by one with the bit shifted out in VF, in the order of R173 when x = 15; Vy is not
read (the spec's decision D9). -/
def Obligations.ShiftsSetBitOut : Prop :=
  ∀ (s : State) (x y : Reg) (strict : Bool),
    decode strict (0x8#4 ++ x.nibble ++ y.nibble ++ 0x6#4) = .ok (.shr x y) ∧
    decode strict (0x8#4 ++ x.nibble ++ y.nibble ++ 0xE#4) = .ok (.shl x y) ∧
    (∃ t, exec (.shr x y) s = .next t ∧ Frame s t [.regs] ∧
      WritesFlagged s t x ((s.reg x).toNat / 2) ((s.reg x).toNat % 2)) ∧
    (∃ t, exec (.shl x y) s = .next t ∧ Frame s t [.regs] ∧
      WritesFlagged s t x ((s.reg x).toNat * 2 % 256) ((s.reg x).toNat / 128))

/-- R171: RND Vx, kk is the cycle's random byte AND kk, for every value of that byte. -/
def Obligations.RandomMasksDraw : Prop :=
  ∀ (s : State) (x : Reg) (kk : Byte) (strict : Bool),
    decode strict (0xC#4 ++ x.nibble ++ kk) = .ok (.rnd x kk) ∧
    ∃ t, exec (.rnd x kk) s = .next t ∧ OtherRegs s t x ∧ Frame s t [.regs] ∧
      ∀ j, (t.reg x).getLsbD j = (s.rand.getLsbD j && kk.getLsbD j)

/-! ## Index register and memory -/

/-- R190, R191, R192: LD I, nnn; ADD I, Vx modulo 2^16 with no flag (the spec's decisions D10, D11); LD F, Vx is five
times Vx, not reduced. -/
def Obligations.IndexRegisterWrites : Prop :=
  ∀ (s : State) (x : Reg) (nnn : Addr12) (strict : Bool),
    decode strict (0xA#4 ++ nnn) = .ok (.ldI nnn) ∧
    decode strict (0xF#4 ++ x.nibble ++ 0x1E#8) = .ok (.addI x) ∧
    decode strict (0xF#4 ++ x.nibble ++ 0x29#8) = .ok (.ldF x) ∧
    (∃ t, exec (.ldI nnn) s = .next t ∧ t.I.toNat = nnn.toNat ∧ Frame s t [.index]) ∧
    (∃ t, exec (.addI x) s = .next t ∧ t.I.toNat = (s.I.toNat + (s.reg x).toNat) % 65536 ∧ Frame s t [.index]) ∧
    (∃ t, exec (.ldF x) s = .next t ∧ t.I.toNat = (s.reg x).toNat * 5 ∧ Frame s t [.index])

/-- R193: LD B, Vx writes the three decimal digits of Vx at `EA(I)`, `EA(I + 1)`, `EA(I + 2)`, most significant first,
and nothing else; under `Fail` it raises MemoryOutOfRange when I + 2 is outside memory. R7's `MEM_SIZE ≥ 80` keeps the
addresses distinct. -/
def Obligations.StoreBcdWritesDigits : Prop :=
  ∀ (s : State) (x : Reg) (strict : Bool),
    decode strict (0xF#4 ++ x.nibble ++ 0x33#8) = .ok (.ldB x) ∧
    (s.cfg.wf → s.accessible 3 → ∃ t, exec (.ldB x) s = .next t ∧
      (∀ k a, k < 3 → effectiveAddr s.cfg (s.I.toNat + k) = .ok a →
        (t.readByte a).toNat = (s.reg x).toNat / 10 ^ (2 - k) % 10) ∧
      (∀ b, (∀ k, k < 3 → effectiveAddr s.cfg (s.I.toNat + k) ≠ .ok b) → t.readByte b = s.readByte b) ∧
      Frame s t [.memory]) ∧
    (s.cfg.boundsPolicy = .fail → s.cfg.memSize ≤ s.I.toNat + 2 →
      RaisesOutOfRange (.ldB x) (0xF#4 ++ x.nibble ++ 0x33#8) s)

/-- R194: LD [I], Vx writes V0 to Vx at `EA(I)` to `EA(I + x)`, nothing else in memory, and advances `I` by x + 1;
under `Fail` it raises MemoryOutOfRange when I + x is outside memory. -/
def Obligations.StoreRegistersWritesBlock : Prop :=
  ∀ (s : State) (x : Reg) (strict : Bool),
    decode strict (0xF#4 ++ x.nibble ++ 0x55#8) = .ok (.storeRegs x) ∧
    (s.cfg.wf → s.accessible (x.val + 1) → ∃ t, exec (.storeRegs x) s = .next t ∧
      (∀ (k : Reg) a, k ≤ x → effectiveAddr s.cfg (s.I.toNat + k.val) = .ok a → t.readByte a = s.reg k) ∧
      (∀ b, (∀ k : Reg, k ≤ x → effectiveAddr s.cfg (s.I.toNat + k.val) ≠ .ok b) → t.readByte b = s.readByte b) ∧
      t.I.toNat = (s.I.toNat + x.val + 1) % 65536 ∧ Frame s t [.memory, .index]) ∧
    (s.cfg.boundsPolicy = .fail → s.cfg.memSize ≤ s.I.toNat + x.val →
      RaisesOutOfRange (.storeRegs x) (0xF#4 ++ x.nibble ++ 0x55#8) s)

/-- R195: LD Vx, [I] loads V0 to Vx from `EA(I)` to `EA(I + x)`, no other register, and advances `I` by x + 1; under
`Fail` it raises MemoryOutOfRange when I + x is outside memory. -/
def Obligations.LoadRegistersReadsBlock : Prop :=
  ∀ (s : State) (x : Reg) (strict : Bool),
    decode strict (0xF#4 ++ x.nibble ++ 0x65#8) = .ok (.loadRegs x) ∧
    (s.accessible (x.val + 1) → ∃ t, exec (.loadRegs x) s = .next t ∧
      (∀ (k : Reg) a, k ≤ x → effectiveAddr s.cfg (s.I.toNat + k.val) = .ok a → t.reg k = s.readByte a) ∧
      (∀ k : Reg, x < k → t.reg k = s.reg k) ∧
      t.I.toNat = (s.I.toNat + x.val + 1) % 65536 ∧ Frame s t [.regs, .index]) ∧
    (s.cfg.boundsPolicy = .fail → s.cfg.memSize ≤ s.I.toNat + x.val →
      RaisesOutOfRange (.loadRegs x) (0xF#4 ++ x.nibble ++ 0x65#8) s)

/-- R196: storing V0 to Vx and loading them back from the same address into any register file reproduces the values;
`I` advances by x + 1 both times. -/
def Obligations.StoreThenLoadRoundTrip : Prop :=
  ∀ (s : State) (x : Reg) (v : Vector Byte 16), s.cfg.wf → s.accessible (x.val + 1) →
    ∃ t u, exec (.storeRegs x) s = .next t ∧ exec (.loadRegs x) { t with V := v, I := s.I } = .next u ∧
      (∀ k : Reg, k ≤ x → u.reg k = s.reg k) ∧ (∀ k : Reg, x < k → u.reg k = v[k]) ∧
      t.I = u.I ∧ u.I.toNat = (s.I.toNat + x.val + 1) % 65536

/-- R76, R302: a word an instruction stores at the next pc is the word the next fetch reads, here the first two registers
of LD [I], Vx with `I` at the following instruction. -/
def Obligations.StoredWordIsFetchedNext : Prop :=
  ∀ (s : State) (x : Reg), s.cfg.wf → s.accessible (x.val + 1) → 1 ≤ x.val → s.I = s.pc →
    s.pc.toNat + 1 < s.cfg.memSize → ∃ t, exec (.storeRegs x) s = .next t ∧
      t.fetchWord = some (s.reg 0 ++ s.reg 1)

/-- Equal readings are equal memories: two canonical memories that read alike at every address are the same list (the
model's own form of memory, assumption log 5). -/
def Obligations.CanonicalMemoryIsUnique : Prop :=
  ∀ (font : Vector Byte fontLen) (m m' : Memory), m.wf font = true → m'.wf font = true →
    (∀ a, m.read font a = m'.read font a) → m = m'

/-! ## Display -/

/-- R210: CLS turns every pixel off and writes nothing else; bits 11:8 of its word are outside the key (R96, R101). -/
def Obligations.ClearScreenTurnsAllOff : Prop :=
  ∀ (s : State) (u : Nibble),
    decode false (0x0#4 ++ u ++ 0xE0#8) = .ok (.cls u) ∧ decode true 0x00E0#16 = .ok (.cls 0) ∧
    ∃ t, exec (.cls u) s = .next t ∧ (∀ r c, t.pixel r c = false) ∧ Frame s t [.display]

/-- R211, R216: pixel `p` of the sprite byte lands on column (h + p) mod 64; a one bit inverts that pixel, every other
column stays, and `hit` says that some column was lit and is inverted. -/
def Obligations.ComposeInvertsSpritePixels : Prop :=
  ∀ (row : Row) (b : Byte) (h : Nat), h < 64 →
    (∀ p, p < 8 → (compose row b h).1.getLsbD (63 - (h + p) % 64) =
      (row.getLsbD (63 - (h + p) % 64) ^^ b.getLsbD (7 - p))) ∧
    (∀ c, c < 64 → (∀ p, p < 8 → (h + p) % 64 ≠ c) → (compose row b h).1.getLsbD (63 - c) = row.getLsbD (63 - c)) ∧
    ((compose row b h).2 = true ↔
      ∃ p, p < 8 ∧ row.getLsbD (63 - (h + p) % 64) = true ∧ b.getLsbD (7 - p) = true)

/-- R212: the split form of the mask equals the rotated form at every offset. -/
def Obligations.SplitMaskEqualsRotated : Prop :=
  ∀ (b : Byte) (h : Nat), h < 64 → spriteMaskSplit b h = spriteMask b h

/-- R213, R214, R215: DRW inverts exactly the screen pixels the sprite's one bits fall on, wrapping on both axes, and sets
VF to 1 exactly when it turned a lit pixel off; coordinates are those before VF is written. With n = 0 it draws nothing,
wherever `I` points (the spec's decision D14), and under `Fail` (D3) it raises MemoryOutOfRange when a sprite byte is
outside memory. -/
def Obligations.DrawInvertsSpriteAndReportsCollision : Prop :=
  ∀ (s : State) (x y : Reg) (n : Nibble) (strict : Bool),
    decode strict (0xD#4 ++ x.nibble ++ y.nibble ++ n) = .ok (.drw x y n) ∧
    ((n.toNat = 0 ∨ s.accessible n.toNat) → ∃ t, exec (.drw x y n) s = .next t ∧
      (∀ r c, t.pixel r c =
        (s.pixel r c ^^ s.spriteAt ((s.reg x).toNat % 64) ((s.reg y).toNat % 32) n.toNat r c)) ∧
      ((∃ r c, s.pixel r c = true ∧ t.pixel r c = false) → t.reg VF = 1) ∧
      ((∀ r c, s.pixel r c = true → t.pixel r c = true) → t.reg VF = 0) ∧
      OtherRegs s t VF ∧ Frame s t [.regs, .display]) ∧
    (s.cfg.boundsPolicy = .fail → 1 ≤ n.toNat → s.cfg.memSize ≤ s.I.toNat + n.toNat - 1 →
      RaisesOutOfRange (.drw x y n) (0xD#4 ++ x.nibble ++ y.nibble ++ n) s)

/-- R217: drawing the same sprite twice at the same place restores the screen. The second draw's VF is 1 exactly when the
first one lit a pixel, in particular for a sprite with a nonzero byte on a blank screen, and 0 for an all-zero sprite: the
rule says "only when", and a sprite whose every pixel was lit before gives 0 (R213 decides; 90_conflicts.md C7, C8). -/
def Obligations.DrawTwiceRestoresScreen : Prop :=
  ∀ (s : State) (x y : Reg) (n : Nibble), x ≠ VF → y ≠ VF → (n.toNat = 0 ∨ s.accessible n.toNat) →
    ∃ t u, exec (.drw x y n) s = .next t ∧ exec (.drw x y n) t = .next u ∧ (∀ r, u.row r = s.row r) ∧
      ((∃ r c, s.pixel r c = false ∧ t.pixel r c = true) → u.reg VF = 1) ∧
      ((∀ r c, t.pixel r c = true → s.pixel r c = true) → u.reg VF = 0) ∧
      ((∀ r c, s.pixel r c = false) → (∃ j, j < n.toNat ∧ s.readByte (s.dataAddr j) ≠ 0) → u.reg VF = 1) ∧
      ((∀ j, j < n.toNat → s.readByte (s.dataAddr j) = 0) → u.reg VF = 0)

/-- R218: a sprite row drawn at column 60 of a blank row shows its left four pixels on columns 60 to 63 and its right four
on columns 0 to 3. -/
def Obligations.SpriteStraddlesRightEdge : Prop :=
  ∀ (b : Byte) (p : Nat),
    (p < 4 → (compose 0 b 60).1.getLsbD (63 - (60 + p)) = b.getLsbD (7 - p)) ∧
    (p < 4 → (compose 0 b 60).1.getLsbD (63 - p) = b.getLsbD (3 - p)) ∧
    (4 ≤ p → p < 60 → (compose 0 b 60).1.getLsbD (63 - p) = false)

/-! ## Keypad and timers -/

/-- R232, R233, R234: the timer transfers. -/
def Obligations.TimerTransfers : Prop :=
  ∀ (s : State) (x : Reg) (strict : Bool),
    decode strict (0xF#4 ++ x.nibble ++ 0x07#8) = .ok (.ldVxDT x) ∧
    decode strict (0xF#4 ++ x.nibble ++ 0x15#8) = .ok (.ldDTVx x) ∧
    decode strict (0xF#4 ++ x.nibble ++ 0x18#8) = .ok (.ldSTVx x) ∧
    (∃ t, exec (.ldVxDT x) s = .next t ∧ t.reg x = s.DT ∧ OtherRegs s t x ∧ Frame s t [.regs]) ∧
    (∃ t, exec (.ldDTVx x) s = .next t ∧ t.DT = s.reg x ∧ Frame s t [.delayTimer]) ∧
    (∃ t, exec (.ldSTVx x) s = .next t ∧ t.ST = s.reg x ∧ Frame s t [.soundTimer])

/-- R235: LD Vx, K stores the lowest held key, or with none held sets pc back to itself and changes nothing else. -/
def Obligations.WaitForKeyTakesLowest : Prop :=
  ∀ (s : State) (x : Reg) (strict : Bool),
    decode strict (0xF#4 ++ x.nibble ++ 0x0A#8) = .ok (.ldVxK x) ∧
    (s.KEYS ≠ 0 → ∃ t, exec (.ldVxK x) s = .next t ∧ s.KEYS.getLsbD (t.reg x).toNat = true ∧
      (∀ j, j < (t.reg x).toNat → s.KEYS.getLsbD j = false) ∧ OtherRegs s t x ∧ Frame s t [.regs]) ∧
    (s.KEYS = 0 → ∃ t, exec (.ldVxK x) s = .next t ∧ t.pc.toNat = (s.pc.toNat + 65534) % 65536 ∧ Frame s t [.pc])

/-! ## Runs -/

/-- R129: at a self-loop every further cycle returns Ok and leaves the state unchanged (its inputs and result are not
state, R38), so the self-loop persists. -/
def Obligations.SelfLoopIsFixedPoint : Prop :=
  ∀ (s : State) (keys : Word) (rand : Byte), s.halted = none → s.selfLoop → ∃ t, s.cycle keys rand = .next t ∧
    t.result = some .ok ∧ t.observe = s.observe ∧ t.cfg = s.cfg ∧ t.selfLoop

/-- R236: with LD Vx, K at pc, a cycle without keys returns Ok and leaves the state unchanged, so the wait goes on for as
long as no key is held; a cycle with a key ends it. -/
def Obligations.WaitHoldsUntilKey : Prop :=
  ∀ (s : State) (x : Reg) (keys : Word) (rand : Byte), s.halted = none →
    s.fetchWord = some (0xF#4 ++ x.nibble ++ 0x0A#8) →
    (∃ t, s.cycle 0 rand = .next t ∧ t.result = some .ok ∧ t.observe = s.observe ∧ t.fetchWord = s.fetchWord) ∧
    (keys ≠ 0 → ∃ t, s.cycle keys rand = .next t ∧ t.result = some .ok ∧ t.pc = s.pc + 2 ∧
      keys.getLsbD (t.reg x).toNat = true ∧ ∀ j, j < (t.reg x).toNat → keys.getLsbD j = false)

/-- R34: KEYS is an input of the cycle and nothing the core holds between cycles: whatever value an earlier cycle left
latched, a step gives the same next state, but for that latch (the spec's decision D21). -/
def Obligations.KeypadIsNotHeldBetweenCycles : Prop :=
  ∀ (s t : State) (k : Word), step s = .next t → ∃ l, step { s with KEYS := k } = .next { t with KEYS := l }

/-! ## Interleaving of TICK and CYCLE -/

/-- A pending list of any number `n` of TICKs and then a CYCLE runs in that order: `n` steps take `n` from each timer,
stopping at 0, and change nothing else, and the next step is that cycle. That every interleaving is admitted is the spec's
decision D22 (R271), that a timer stops at 0 is D13 (R270); that a schedule is a list in the state is the model's
(assumption log 2). -/
def Obligations.PendingTicksRunBeforeCycle : Prop :=
  ∀ (s : State) (n : Nat) (keys : Word) (rand : Byte) (rest : List HostOp),
    s.pending = List.replicate n .tick ++ .cycle keys rand :: rest →
    ∃ t, runSteps n s = .next t ∧ t.pending = .cycle keys rand :: rest ∧
      t.DT.toNat = s.DT.toNat - n ∧ t.ST.toNat = s.ST.toNat - n ∧
      Frame s t [.delayTimer, .soundTimer, .host] ∧ t.draws = s.draws ∧
      runSteps (n + 1) s = ({ t with pending := rest } : State).cycle keys rand

/-- With nothing pending, a step is a free number of ticks and then a cycle: exactly what running that many pending
TICKs one by one and then the pending CYCLE gives. Nothing is known of that number, so a claim holds whatever the
interleaving is (R271; the spec's decision D22; that the number is a free value is the model's, assumption log 2). -/
def Obligations.FreeTicksInterleaveWithCycles : Prop :=
  ∀ s : State, s.pending = [] →
    step s = runSteps (Config.freeTicks s.draws + 1) { s with
      pending := List.replicate (Config.freeTicks s.draws) .tick ++
        [.cycle (Config.freeKeys s.draws) (Config.freeRand s.draws)]
      draws := s.draws + 1 }
end

