-- ==== Sys2Proof/Laws/Encoding.lean ====
section
/-! SUPPORT. The fields of the words the encoder lays out (30_encoding.md R91, R92), layout by layout. -/

namespace Sys2Proof

/-- A field that lies in the low part of an append. -/
theorem extractLsb'_append_low {a b : Nat} (hi : BitVec a) (lo : BitVec b) {start len : Nat} (h : start + len ≤ b) :
    (hi ++ lo).extractLsb' start len = lo.extractLsb' start len := by
  apply BitVec.eq_of_getLsbD_eq
  intro i hi'
  simp only [BitVec.getLsbD_extractLsb', hi', decide_true, Bool.true_and, BitVec.getLsbD_append]
  rw [if_pos (show start + i < b by omega)]

/-- A field that lies in the high part of an append. -/
theorem extractLsb'_append_high {a b : Nat} (hi : BitVec a) (lo : BitVec b) {start len : Nat} (h : b ≤ start) :
    (hi ++ lo).extractLsb' start len = hi.extractLsb' (start - b) len := by
  apply BitVec.eq_of_getLsbD_eq
  intro i hi'
  simp only [BitVec.getLsbD_extractLsb', hi', decide_true, Bool.true_and, BitVec.getLsbD_append]
  rw [if_neg (show ¬ start + i < b by omega)]
  congr 1
  omega

/-- A field that is the whole value. -/
theorem extractLsb'_whole {n : Nat} (v : BitVec n) : v.extractLsb' 0 n = v := by
  apply BitVec.eq_of_getLsbD_eq
  intro i hi
  simp only [BitVec.getLsbD_extractLsb', hi, decide_true, Bool.true_and, Nat.zero_add]

variable (op u n : Nibble) (x y : Reg) (kk : Byte) (nnn : Addr12)

/-! ## Top nibble, register, low byte -/

theorem fieldOp_encXK : fieldOp (encXK op x kk) = op := by
  unfold fieldOp encXK
  rw [extractLsb'_append_high _ _ (by decide), extractLsb'_append_high _ _ (by decide)]
  exact extractLsb'_whole op

theorem fieldXBits_encXK : fieldXBits (encXK op x kk) = x.nibble := by
  unfold fieldXBits encXK
  rw [extractLsb'_append_high _ _ (by decide), extractLsb'_append_low _ _ (by decide)]
  exact extractLsb'_whole _

theorem fieldX_encXK : fieldX (encXK op x kk) = x := by
  unfold fieldX
  rw [fieldXBits_encXK]

theorem fieldKK_encXK : fieldKK (encXK op x kk) = kk := by
  unfold fieldKK encXK
  rw [extractLsb'_append_low _ _ (by decide)]
  exact extractLsb'_whole kk

/-! ## Top nibble, two registers, low nibble -/

theorem fieldOp_encXY : fieldOp (encXY op x y n) = op := by
  unfold fieldOp encXY
  rw [extractLsb'_append_high _ _ (by decide), extractLsb'_append_high _ _ (by decide),
    extractLsb'_append_high _ _ (by decide)]
  exact extractLsb'_whole op

theorem fieldX_encXY : fieldX (encXY op x y n) = x := by
  unfold fieldX fieldXBits encXY
  rw [extractLsb'_append_high _ _ (by decide), extractLsb'_append_high _ _ (by decide),
    extractLsb'_append_low _ _ (by decide)]
  exact congrArg BitVec.toFin (extractLsb'_whole x.nibble)

theorem fieldY_encXY : fieldY (encXY op x y n) = y := by
  unfold fieldY fieldYBits encXY
  rw [extractLsb'_append_high _ _ (by decide), extractLsb'_append_low _ _ (by decide)]
  exact congrArg BitVec.toFin (extractLsb'_whole y.nibble)

theorem fieldN_encXY : fieldN (encXY op x y n) = n := by
  unfold fieldN encXY
  rw [extractLsb'_append_low _ _ (by decide)]
  exact extractLsb'_whole n

/-! ## Top nibble and 12-bit address -/

theorem fieldOp_encA : fieldOp (encA op nnn) = op := by
  unfold fieldOp encA
  rw [extractLsb'_append_high _ _ (by decide)]
  exact extractLsb'_whole op

theorem fieldNNN_encA : fieldNNN (encA op nnn) = nnn := by
  unfold fieldNNN encA
  rw [extractLsb'_append_low _ _ (by decide)]
  exact extractLsb'_whole nnn

/-! ## Top nibble 0, four bits outside the key, low byte -/

theorem fieldOp_enc0 : fieldOp (enc0 u kk) = 0x0 := by
  unfold fieldOp enc0
  rw [extractLsb'_append_high _ _ (by decide), extractLsb'_append_high _ _ (by decide)]
  exact extractLsb'_whole _

theorem fieldXBits_enc0 : fieldXBits (enc0 u kk) = u := by
  unfold fieldXBits enc0
  rw [extractLsb'_append_high _ _ (by decide), extractLsb'_append_low _ _ (by decide)]
  exact extractLsb'_whole u

theorem fieldKK_enc0 : fieldKK (enc0 u kk) = kk := by
  unfold fieldKK enc0
  rw [extractLsb'_append_low _ _ (by decide)]
  exact extractLsb'_whole kk

/-! ## Words under the masks of the opcode table -/

theorem append_and {a b : Nat} (p q : BitVec a) (r t : BitVec b) : (p ++ r) &&& (q ++ t) = (p &&& q) ++ (r &&& t) := by
  apply BitVec.eq_of_getLsbD_eq
  intro i _
  simp only [BitVec.getLsbD_and, BitVec.getLsbD_append]
  split <;> rfl

theorem and_F : op &&& 0xF = op := by revert op; decide
theorem and_0 : op &&& 0x0 = 0 := by revert op; decide
theorem and_FF : kk &&& 0xFF = kk := by
  apply BitVec.eq_of_getLsbD_eq
  intro i hi
  simp only [BitVec.getLsbD_and]
  have : (0xFF : Byte).getLsbD i = true := by revert i; decide
  rw [this, Bool.and_true]
theorem and_00 : kk &&& 0x00 = 0 := by simp
theorem and_000 : nnn &&& 0x000 = 0 := by simp

theorem encXK_and_op : encXK op x kk &&& 0xF000 = encXK op 0 0 := by
  show (op ++ x.nibble ++ kk) &&& ((0xF : Nibble) ++ (0x0 : Nibble) ++ (0x00 : Byte)) = _
  rw [append_and, append_and, and_F, and_0, and_00]
  rfl

theorem encXK_and_key : encXK op x kk &&& 0xF0FF = encXK op 0 kk := by
  show (op ++ x.nibble ++ kk) &&& ((0xF : Nibble) ++ (0x0 : Nibble) ++ (0xFF : Byte)) = _
  rw [append_and, append_and, and_F, and_0, and_FF]
  rfl

theorem encXY_and_op : encXY op x y n &&& 0xF000 = encXY op 0 0 0 := by
  unfold encXY
  rw [show (0xF000 : Word) = (0xF : Nibble) ++ (0x0 : Nibble) ++ (0x0 : Nibble) ++ (0x0 : Nibble) from rfl]
  rw [append_and, append_and, append_and, and_F, and_0, and_0, and_0]
  rfl

theorem encXY_and_key : encXY op x y n &&& 0xF00F = encXY op 0 0 n := by
  unfold encXY
  rw [show (0xF00F : Word) = (0xF : Nibble) ++ (0x0 : Nibble) ++ (0x0 : Nibble) ++ (0xF : Nibble) from rfl]
  rw [append_and, append_and, append_and, and_F, and_0, and_0, and_F]
  rfl

theorem encA_and_op : encA op nnn &&& 0xF000 = encA op 0 := by
  show (op ++ nnn) &&& ((0xF : Nibble) ++ (0x000 : Addr12)) = _
  rw [append_and, and_F, and_000]
  rfl

theorem enc0_and_key : enc0 u kk &&& 0xF0FF = enc0 0 kk := by
  show ((0x0 : Nibble) ++ u ++ kk) &&& ((0xF : Nibble) ++ (0x0 : Nibble) ++ (0xFF : Byte)) = _
  rw [append_and, append_and, and_F, and_0, and_FF]
  rfl

theorem enc0_and_all : enc0 u kk &&& 0xFFFF = enc0 u kk := by
  show ((0x0 : Nibble) ++ u ++ kk) &&& ((0xF : Nibble) ++ (0xF : Nibble) ++ (0xFF : Byte)) = _
  rw [append_and, append_and, and_F, and_F, and_FF]
  rfl

end Sys2Proof
end

