-- ==== Sys2Proof/Laws/State.lean ====
section
/-! SUPPORT. One lemma per field per named update of State, and one per accessor an update does not touch, so that no
later proof unfolds a record update. -/

namespace Sys2Proof.Machine

variable (s : State)

/-! ## setReg -/

@[simp] theorem State.setReg_cfg (x : Reg) (v : Byte) : (s.setReg x v).cfg = s.cfg := rfl
@[simp] theorem State.setReg_V (x : Reg) (v : Byte) : (s.setReg x v).V = s.V.set x v := rfl
@[simp] theorem State.setReg_I (x : Reg) (v : Byte) : (s.setReg x v).I = s.I := rfl
@[simp] theorem State.setReg_pc (x : Reg) (v : Byte) : (s.setReg x v).pc = s.pc := rfl
@[simp] theorem State.setReg_SP (x : Reg) (v : Byte) : (s.setReg x v).SP = s.SP := rfl
@[simp] theorem State.setReg_STACK (x : Reg) (v : Byte) : (s.setReg x v).STACK = s.STACK := rfl
@[simp] theorem State.setReg_DT (x : Reg) (v : Byte) : (s.setReg x v).DT = s.DT := rfl
@[simp] theorem State.setReg_ST (x : Reg) (v : Byte) : (s.setReg x v).ST = s.ST := rfl
@[simp] theorem State.setReg_M (x : Reg) (v : Byte) : (s.setReg x v).M = s.M := rfl
@[simp] theorem State.setReg_DISP (x : Reg) (v : Byte) : (s.setReg x v).DISP = s.DISP := rfl
@[simp] theorem State.setReg_halted (x : Reg) (v : Byte) : (s.setReg x v).halted = s.halted := rfl
@[simp] theorem State.setReg_KEYS (x : Reg) (v : Byte) : (s.setReg x v).KEYS = s.KEYS := rfl
@[simp] theorem State.setReg_rand (x : Reg) (v : Byte) : (s.setReg x v).rand = s.rand := rfl
@[simp] theorem State.setReg_draws (x : Reg) (v : Byte) : (s.setReg x v).draws = s.draws := rfl
@[simp] theorem State.setReg_pending (x : Reg) (v : Byte) : (s.setReg x v).pending = s.pending := rfl
@[simp] theorem State.setReg_result (x : Reg) (v : Byte) : (s.setReg x v).result = s.result := rfl
@[simp] theorem State.setReg_readByte (x : Reg) (v : Byte) (a : Nat) : (s.setReg x v).readByte a = s.readByte a := rfl
@[simp] theorem State.setReg_row (x : Reg) (v : Byte) (r : Fin 32) : (s.setReg x v).row r = s.row r := rfl
@[simp] theorem State.setReg_stackEntry (x : Reg) (v : Byte) (k : Nat) : (s.setReg x v).stackEntry k = s.stackEntry k := rfl

/-! ## writeBytes -/

@[simp] theorem State.writeBytes_cfg (cells : List Host.Cell) : (s.writeBytes cells).cfg = s.cfg := rfl
@[simp] theorem State.writeBytes_V (cells : List Host.Cell) : (s.writeBytes cells).V = s.V := rfl
@[simp] theorem State.writeBytes_I (cells : List Host.Cell) : (s.writeBytes cells).I = s.I := rfl
@[simp] theorem State.writeBytes_pc (cells : List Host.Cell) : (s.writeBytes cells).pc = s.pc := rfl
@[simp] theorem State.writeBytes_SP (cells : List Host.Cell) : (s.writeBytes cells).SP = s.SP := rfl
@[simp] theorem State.writeBytes_STACK (cells : List Host.Cell) : (s.writeBytes cells).STACK = s.STACK := rfl
@[simp] theorem State.writeBytes_DT (cells : List Host.Cell) : (s.writeBytes cells).DT = s.DT := rfl
@[simp] theorem State.writeBytes_ST (cells : List Host.Cell) : (s.writeBytes cells).ST = s.ST := rfl
@[simp] theorem State.writeBytes_M (cells : List Host.Cell) : (s.writeBytes cells).M = s.M.writeAll s.cfg.font cells := rfl
@[simp] theorem State.writeBytes_DISP (cells : List Host.Cell) : (s.writeBytes cells).DISP = s.DISP := rfl
@[simp] theorem State.writeBytes_halted (cells : List Host.Cell) : (s.writeBytes cells).halted = s.halted := rfl
@[simp] theorem State.writeBytes_KEYS (cells : List Host.Cell) : (s.writeBytes cells).KEYS = s.KEYS := rfl
@[simp] theorem State.writeBytes_rand (cells : List Host.Cell) : (s.writeBytes cells).rand = s.rand := rfl
@[simp] theorem State.writeBytes_draws (cells : List Host.Cell) : (s.writeBytes cells).draws = s.draws := rfl
@[simp] theorem State.writeBytes_pending (cells : List Host.Cell) : (s.writeBytes cells).pending = s.pending := rfl
@[simp] theorem State.writeBytes_result (cells : List Host.Cell) : (s.writeBytes cells).result = s.result := rfl
@[simp] theorem State.writeBytes_reg (cells : List Host.Cell) (r : Reg) : (s.writeBytes cells).reg r = s.reg r := rfl
@[simp] theorem State.writeBytes_row (cells : List Host.Cell) (r : Fin 32) : (s.writeBytes cells).row r = s.row r := rfl
@[simp] theorem State.writeBytes_stackEntry (cells : List Host.Cell) (k : Nat) : (s.writeBytes cells).stackEntry k = s.stackEntry k := rfl

/-! ## loadRegBlock -/

@[simp] theorem State.loadRegBlock_cfg (bytes : List Byte) : (s.loadRegBlock bytes).cfg = s.cfg := rfl
@[simp] theorem State.loadRegBlock_V (bytes : List Byte) : (s.loadRegBlock bytes).V = Vector.ofFn fun r : Reg => bytes[r.val]?.getD (s.reg r) := rfl
@[simp] theorem State.loadRegBlock_I (bytes : List Byte) : (s.loadRegBlock bytes).I = s.I := rfl
@[simp] theorem State.loadRegBlock_pc (bytes : List Byte) : (s.loadRegBlock bytes).pc = s.pc := rfl
@[simp] theorem State.loadRegBlock_SP (bytes : List Byte) : (s.loadRegBlock bytes).SP = s.SP := rfl
@[simp] theorem State.loadRegBlock_STACK (bytes : List Byte) : (s.loadRegBlock bytes).STACK = s.STACK := rfl
@[simp] theorem State.loadRegBlock_DT (bytes : List Byte) : (s.loadRegBlock bytes).DT = s.DT := rfl
@[simp] theorem State.loadRegBlock_ST (bytes : List Byte) : (s.loadRegBlock bytes).ST = s.ST := rfl
@[simp] theorem State.loadRegBlock_M (bytes : List Byte) : (s.loadRegBlock bytes).M = s.M := rfl
@[simp] theorem State.loadRegBlock_DISP (bytes : List Byte) : (s.loadRegBlock bytes).DISP = s.DISP := rfl
@[simp] theorem State.loadRegBlock_halted (bytes : List Byte) : (s.loadRegBlock bytes).halted = s.halted := rfl
@[simp] theorem State.loadRegBlock_KEYS (bytes : List Byte) : (s.loadRegBlock bytes).KEYS = s.KEYS := rfl
@[simp] theorem State.loadRegBlock_rand (bytes : List Byte) : (s.loadRegBlock bytes).rand = s.rand := rfl
@[simp] theorem State.loadRegBlock_draws (bytes : List Byte) : (s.loadRegBlock bytes).draws = s.draws := rfl
@[simp] theorem State.loadRegBlock_pending (bytes : List Byte) : (s.loadRegBlock bytes).pending = s.pending := rfl
@[simp] theorem State.loadRegBlock_result (bytes : List Byte) : (s.loadRegBlock bytes).result = s.result := rfl
@[simp] theorem State.loadRegBlock_readByte (bytes : List Byte) (a : Nat) : (s.loadRegBlock bytes).readByte a = s.readByte a := rfl
@[simp] theorem State.loadRegBlock_row (bytes : List Byte) (r : Fin 32) : (s.loadRegBlock bytes).row r = s.row r := rfl
@[simp] theorem State.loadRegBlock_stackEntry (bytes : List Byte) (k : Nat) : (s.loadRegBlock bytes).stackEntry k = s.stackEntry k := rfl

/-! ## push -/

@[simp] theorem State.push_cfg (v : Word) : (s.push v).cfg = s.cfg := rfl
@[simp] theorem State.push_V (v : Word) : (s.push v).V = s.V := rfl
@[simp] theorem State.push_I (v : Word) : (s.push v).I = s.I := rfl
@[simp] theorem State.push_pc (v : Word) : (s.push v).pc = s.pc := rfl
@[simp] theorem State.push_SP (v : Word) : (s.push v).SP = s.SP + 1 := rfl
@[simp] theorem State.push_STACK (v : Word) : (s.push v).STACK = s.STACK.set s.SP v := rfl
@[simp] theorem State.push_DT (v : Word) : (s.push v).DT = s.DT := rfl
@[simp] theorem State.push_ST (v : Word) : (s.push v).ST = s.ST := rfl
@[simp] theorem State.push_M (v : Word) : (s.push v).M = s.M := rfl
@[simp] theorem State.push_DISP (v : Word) : (s.push v).DISP = s.DISP := rfl
@[simp] theorem State.push_halted (v : Word) : (s.push v).halted = s.halted := rfl
@[simp] theorem State.push_KEYS (v : Word) : (s.push v).KEYS = s.KEYS := rfl
@[simp] theorem State.push_rand (v : Word) : (s.push v).rand = s.rand := rfl
@[simp] theorem State.push_draws (v : Word) : (s.push v).draws = s.draws := rfl
@[simp] theorem State.push_pending (v : Word) : (s.push v).pending = s.pending := rfl
@[simp] theorem State.push_result (v : Word) : (s.push v).result = s.result := rfl
@[simp] theorem State.push_reg (v : Word) (r : Reg) : (s.push v).reg r = s.reg r := rfl
@[simp] theorem State.push_readByte (v : Word) (a : Nat) : (s.push v).readByte a = s.readByte a := rfl
@[simp] theorem State.push_row (v : Word) (r : Fin 32) : (s.push v).row r = s.row r := rfl

/-! ## pop -/

@[simp] theorem State.pop_cfg : s.pop.cfg = s.cfg := rfl
@[simp] theorem State.pop_V : s.pop.V = s.V := rfl
@[simp] theorem State.pop_I : s.pop.I = s.I := rfl
@[simp] theorem State.pop_pc : s.pop.pc = s.pc := rfl
@[simp] theorem State.pop_SP : s.pop.SP = s.SP - 1 := rfl
@[simp] theorem State.pop_STACK : s.pop.STACK = s.STACK := rfl
@[simp] theorem State.pop_DT : s.pop.DT = s.DT := rfl
@[simp] theorem State.pop_ST : s.pop.ST = s.ST := rfl
@[simp] theorem State.pop_M : s.pop.M = s.M := rfl
@[simp] theorem State.pop_DISP : s.pop.DISP = s.DISP := rfl
@[simp] theorem State.pop_halted : s.pop.halted = s.halted := rfl
@[simp] theorem State.pop_KEYS : s.pop.KEYS = s.KEYS := rfl
@[simp] theorem State.pop_rand : s.pop.rand = s.rand := rfl
@[simp] theorem State.pop_draws : s.pop.draws = s.draws := rfl
@[simp] theorem State.pop_pending : s.pop.pending = s.pending := rfl
@[simp] theorem State.pop_result : s.pop.result = s.result := rfl
@[simp] theorem State.pop_reg (r : Reg) : s.pop.reg r = s.reg r := rfl
@[simp] theorem State.pop_readByte (a : Nat) : s.pop.readByte a = s.readByte a := rfl
@[simp] theorem State.pop_row (r : Fin 32) : s.pop.row r = s.row r := rfl
@[simp] theorem State.pop_stackEntry (k : Nat) : s.pop.stackEntry k = s.stackEntry k := rfl

/-! ## setPc -/

@[simp] theorem State.setPc_cfg (v : Word) : (s.setPc v).cfg = s.cfg := rfl
@[simp] theorem State.setPc_V (v : Word) : (s.setPc v).V = s.V := rfl
@[simp] theorem State.setPc_I (v : Word) : (s.setPc v).I = s.I := rfl
@[simp] theorem State.setPc_pc (v : Word) : (s.setPc v).pc = v := rfl
@[simp] theorem State.setPc_SP (v : Word) : (s.setPc v).SP = s.SP := rfl
@[simp] theorem State.setPc_STACK (v : Word) : (s.setPc v).STACK = s.STACK := rfl
@[simp] theorem State.setPc_DT (v : Word) : (s.setPc v).DT = s.DT := rfl
@[simp] theorem State.setPc_ST (v : Word) : (s.setPc v).ST = s.ST := rfl
@[simp] theorem State.setPc_M (v : Word) : (s.setPc v).M = s.M := rfl
@[simp] theorem State.setPc_DISP (v : Word) : (s.setPc v).DISP = s.DISP := rfl
@[simp] theorem State.setPc_halted (v : Word) : (s.setPc v).halted = s.halted := rfl
@[simp] theorem State.setPc_KEYS (v : Word) : (s.setPc v).KEYS = s.KEYS := rfl
@[simp] theorem State.setPc_rand (v : Word) : (s.setPc v).rand = s.rand := rfl
@[simp] theorem State.setPc_draws (v : Word) : (s.setPc v).draws = s.draws := rfl
@[simp] theorem State.setPc_pending (v : Word) : (s.setPc v).pending = s.pending := rfl
@[simp] theorem State.setPc_result (v : Word) : (s.setPc v).result = s.result := rfl
@[simp] theorem State.setPc_reg (v : Word) (r : Reg) : (s.setPc v).reg r = s.reg r := rfl
@[simp] theorem State.setPc_readByte (v : Word) (a : Nat) : (s.setPc v).readByte a = s.readByte a := rfl
@[simp] theorem State.setPc_row (v : Word) (r : Fin 32) : (s.setPc v).row r = s.row r := rfl
@[simp] theorem State.setPc_stackEntry (v : Word) (k : Nat) : (s.setPc v).stackEntry k = s.stackEntry k := rfl

/-! ## setI -/

@[simp] theorem State.setI_cfg (v : Word) : (s.setI v).cfg = s.cfg := rfl
@[simp] theorem State.setI_V (v : Word) : (s.setI v).V = s.V := rfl
@[simp] theorem State.setI_I (v : Word) : (s.setI v).I = v := rfl
@[simp] theorem State.setI_pc (v : Word) : (s.setI v).pc = s.pc := rfl
@[simp] theorem State.setI_SP (v : Word) : (s.setI v).SP = s.SP := rfl
@[simp] theorem State.setI_STACK (v : Word) : (s.setI v).STACK = s.STACK := rfl
@[simp] theorem State.setI_DT (v : Word) : (s.setI v).DT = s.DT := rfl
@[simp] theorem State.setI_ST (v : Word) : (s.setI v).ST = s.ST := rfl
@[simp] theorem State.setI_M (v : Word) : (s.setI v).M = s.M := rfl
@[simp] theorem State.setI_DISP (v : Word) : (s.setI v).DISP = s.DISP := rfl
@[simp] theorem State.setI_halted (v : Word) : (s.setI v).halted = s.halted := rfl
@[simp] theorem State.setI_KEYS (v : Word) : (s.setI v).KEYS = s.KEYS := rfl
@[simp] theorem State.setI_rand (v : Word) : (s.setI v).rand = s.rand := rfl
@[simp] theorem State.setI_draws (v : Word) : (s.setI v).draws = s.draws := rfl
@[simp] theorem State.setI_pending (v : Word) : (s.setI v).pending = s.pending := rfl
@[simp] theorem State.setI_result (v : Word) : (s.setI v).result = s.result := rfl
@[simp] theorem State.setI_reg (v : Word) (r : Reg) : (s.setI v).reg r = s.reg r := rfl
@[simp] theorem State.setI_readByte (v : Word) (a : Nat) : (s.setI v).readByte a = s.readByte a := rfl
@[simp] theorem State.setI_row (v : Word) (r : Fin 32) : (s.setI v).row r = s.row r := rfl
@[simp] theorem State.setI_stackEntry (v : Word) (k : Nat) : (s.setI v).stackEntry k = s.stackEntry k := rfl

/-! ## setDT -/

@[simp] theorem State.setDT_cfg (v : Byte) : (s.setDT v).cfg = s.cfg := rfl
@[simp] theorem State.setDT_V (v : Byte) : (s.setDT v).V = s.V := rfl
@[simp] theorem State.setDT_I (v : Byte) : (s.setDT v).I = s.I := rfl
@[simp] theorem State.setDT_pc (v : Byte) : (s.setDT v).pc = s.pc := rfl
@[simp] theorem State.setDT_SP (v : Byte) : (s.setDT v).SP = s.SP := rfl
@[simp] theorem State.setDT_STACK (v : Byte) : (s.setDT v).STACK = s.STACK := rfl
@[simp] theorem State.setDT_DT (v : Byte) : (s.setDT v).DT = v := rfl
@[simp] theorem State.setDT_ST (v : Byte) : (s.setDT v).ST = s.ST := rfl
@[simp] theorem State.setDT_M (v : Byte) : (s.setDT v).M = s.M := rfl
@[simp] theorem State.setDT_DISP (v : Byte) : (s.setDT v).DISP = s.DISP := rfl
@[simp] theorem State.setDT_halted (v : Byte) : (s.setDT v).halted = s.halted := rfl
@[simp] theorem State.setDT_KEYS (v : Byte) : (s.setDT v).KEYS = s.KEYS := rfl
@[simp] theorem State.setDT_rand (v : Byte) : (s.setDT v).rand = s.rand := rfl
@[simp] theorem State.setDT_draws (v : Byte) : (s.setDT v).draws = s.draws := rfl
@[simp] theorem State.setDT_pending (v : Byte) : (s.setDT v).pending = s.pending := rfl
@[simp] theorem State.setDT_result (v : Byte) : (s.setDT v).result = s.result := rfl
@[simp] theorem State.setDT_reg (v : Byte) (r : Reg) : (s.setDT v).reg r = s.reg r := rfl
@[simp] theorem State.setDT_readByte (v : Byte) (a : Nat) : (s.setDT v).readByte a = s.readByte a := rfl
@[simp] theorem State.setDT_row (v : Byte) (r : Fin 32) : (s.setDT v).row r = s.row r := rfl
@[simp] theorem State.setDT_stackEntry (v : Byte) (k : Nat) : (s.setDT v).stackEntry k = s.stackEntry k := rfl

/-! ## setST -/

@[simp] theorem State.setST_cfg (v : Byte) : (s.setST v).cfg = s.cfg := rfl
@[simp] theorem State.setST_V (v : Byte) : (s.setST v).V = s.V := rfl
@[simp] theorem State.setST_I (v : Byte) : (s.setST v).I = s.I := rfl
@[simp] theorem State.setST_pc (v : Byte) : (s.setST v).pc = s.pc := rfl
@[simp] theorem State.setST_SP (v : Byte) : (s.setST v).SP = s.SP := rfl
@[simp] theorem State.setST_STACK (v : Byte) : (s.setST v).STACK = s.STACK := rfl
@[simp] theorem State.setST_DT (v : Byte) : (s.setST v).DT = s.DT := rfl
@[simp] theorem State.setST_ST (v : Byte) : (s.setST v).ST = v := rfl
@[simp] theorem State.setST_M (v : Byte) : (s.setST v).M = s.M := rfl
@[simp] theorem State.setST_DISP (v : Byte) : (s.setST v).DISP = s.DISP := rfl
@[simp] theorem State.setST_halted (v : Byte) : (s.setST v).halted = s.halted := rfl
@[simp] theorem State.setST_KEYS (v : Byte) : (s.setST v).KEYS = s.KEYS := rfl
@[simp] theorem State.setST_rand (v : Byte) : (s.setST v).rand = s.rand := rfl
@[simp] theorem State.setST_draws (v : Byte) : (s.setST v).draws = s.draws := rfl
@[simp] theorem State.setST_pending (v : Byte) : (s.setST v).pending = s.pending := rfl
@[simp] theorem State.setST_result (v : Byte) : (s.setST v).result = s.result := rfl
@[simp] theorem State.setST_reg (v : Byte) (r : Reg) : (s.setST v).reg r = s.reg r := rfl
@[simp] theorem State.setST_readByte (v : Byte) (a : Nat) : (s.setST v).readByte a = s.readByte a := rfl
@[simp] theorem State.setST_row (v : Byte) (r : Fin 32) : (s.setST v).row r = s.row r := rfl
@[simp] theorem State.setST_stackEntry (v : Byte) (k : Nat) : (s.setST v).stackEntry k = s.stackEntry k := rfl

/-! ## setDisplay -/

@[simp] theorem State.setDisplay_cfg (d : Vector Row 32) : (s.setDisplay d).cfg = s.cfg := rfl
@[simp] theorem State.setDisplay_V (d : Vector Row 32) : (s.setDisplay d).V = s.V := rfl
@[simp] theorem State.setDisplay_I (d : Vector Row 32) : (s.setDisplay d).I = s.I := rfl
@[simp] theorem State.setDisplay_pc (d : Vector Row 32) : (s.setDisplay d).pc = s.pc := rfl
@[simp] theorem State.setDisplay_SP (d : Vector Row 32) : (s.setDisplay d).SP = s.SP := rfl
@[simp] theorem State.setDisplay_STACK (d : Vector Row 32) : (s.setDisplay d).STACK = s.STACK := rfl
@[simp] theorem State.setDisplay_DT (d : Vector Row 32) : (s.setDisplay d).DT = s.DT := rfl
@[simp] theorem State.setDisplay_ST (d : Vector Row 32) : (s.setDisplay d).ST = s.ST := rfl
@[simp] theorem State.setDisplay_M (d : Vector Row 32) : (s.setDisplay d).M = s.M := rfl
@[simp] theorem State.setDisplay_DISP (d : Vector Row 32) : (s.setDisplay d).DISP = d := rfl
@[simp] theorem State.setDisplay_halted (d : Vector Row 32) : (s.setDisplay d).halted = s.halted := rfl
@[simp] theorem State.setDisplay_KEYS (d : Vector Row 32) : (s.setDisplay d).KEYS = s.KEYS := rfl
@[simp] theorem State.setDisplay_rand (d : Vector Row 32) : (s.setDisplay d).rand = s.rand := rfl
@[simp] theorem State.setDisplay_draws (d : Vector Row 32) : (s.setDisplay d).draws = s.draws := rfl
@[simp] theorem State.setDisplay_pending (d : Vector Row 32) : (s.setDisplay d).pending = s.pending := rfl
@[simp] theorem State.setDisplay_result (d : Vector Row 32) : (s.setDisplay d).result = s.result := rfl
@[simp] theorem State.setDisplay_reg (d : Vector Row 32) (r : Reg) : (s.setDisplay d).reg r = s.reg r := rfl
@[simp] theorem State.setDisplay_readByte (d : Vector Row 32) (a : Nat) : (s.setDisplay d).readByte a = s.readByte a := rfl
@[simp] theorem State.setDisplay_stackEntry (d : Vector Row 32) (k : Nat) : (s.setDisplay d).stackEntry k = s.stackEntry k := rfl

/-! ## enter -/

@[simp] theorem State.enter_cfg (keys : Word) (rand : Byte) : (s.enter keys rand).cfg = s.cfg := rfl
@[simp] theorem State.enter_V (keys : Word) (rand : Byte) : (s.enter keys rand).V = s.V := rfl
@[simp] theorem State.enter_I (keys : Word) (rand : Byte) : (s.enter keys rand).I = s.I := rfl
@[simp] theorem State.enter_pc (keys : Word) (rand : Byte) : (s.enter keys rand).pc = s.pc + 2 := rfl
@[simp] theorem State.enter_SP (keys : Word) (rand : Byte) : (s.enter keys rand).SP = s.SP := rfl
@[simp] theorem State.enter_STACK (keys : Word) (rand : Byte) : (s.enter keys rand).STACK = s.STACK := rfl
@[simp] theorem State.enter_DT (keys : Word) (rand : Byte) : (s.enter keys rand).DT = s.DT := rfl
@[simp] theorem State.enter_ST (keys : Word) (rand : Byte) : (s.enter keys rand).ST = s.ST := rfl
@[simp] theorem State.enter_M (keys : Word) (rand : Byte) : (s.enter keys rand).M = s.M := rfl
@[simp] theorem State.enter_DISP (keys : Word) (rand : Byte) : (s.enter keys rand).DISP = s.DISP := rfl
@[simp] theorem State.enter_halted (keys : Word) (rand : Byte) : (s.enter keys rand).halted = s.halted := rfl
@[simp] theorem State.enter_KEYS (keys : Word) (rand : Byte) : (s.enter keys rand).KEYS = keys := rfl
@[simp] theorem State.enter_rand (keys : Word) (rand : Byte) : (s.enter keys rand).rand = rand := rfl
@[simp] theorem State.enter_draws (keys : Word) (rand : Byte) : (s.enter keys rand).draws = s.draws := rfl
@[simp] theorem State.enter_pending (keys : Word) (rand : Byte) : (s.enter keys rand).pending = s.pending := rfl
@[simp] theorem State.enter_result (keys : Word) (rand : Byte) : (s.enter keys rand).result = some .ok := rfl
@[simp] theorem State.enter_reg (keys : Word) (rand : Byte) (r : Reg) : (s.enter keys rand).reg r = s.reg r := rfl
@[simp] theorem State.enter_readByte (keys : Word) (rand : Byte) (a : Nat) : (s.enter keys rand).readByte a = s.readByte a := rfl
@[simp] theorem State.enter_row (keys : Word) (rand : Byte) (r : Fin 32) : (s.enter keys rand).row r = s.row r := rfl
@[simp] theorem State.enter_stackEntry (keys : Word) (rand : Byte) (k : Nat) : (s.enter keys rand).stackEntry k = s.stackEntry k := rfl

/-! ## tick -/

@[simp] theorem State.tick_cfg : s.tick.cfg = s.cfg := rfl
@[simp] theorem State.tick_V : s.tick.V = s.V := rfl
@[simp] theorem State.tick_I : s.tick.I = s.I := rfl
@[simp] theorem State.tick_pc : s.tick.pc = s.pc := rfl
@[simp] theorem State.tick_SP : s.tick.SP = s.SP := rfl
@[simp] theorem State.tick_STACK : s.tick.STACK = s.STACK := rfl
@[simp] theorem State.tick_DT : s.tick.DT = timerTick s.DT := rfl
@[simp] theorem State.tick_ST : s.tick.ST = timerTick s.ST := rfl
@[simp] theorem State.tick_M : s.tick.M = s.M := rfl
@[simp] theorem State.tick_DISP : s.tick.DISP = s.DISP := rfl
@[simp] theorem State.tick_halted : s.tick.halted = s.halted := rfl
@[simp] theorem State.tick_KEYS : s.tick.KEYS = s.KEYS := rfl
@[simp] theorem State.tick_rand : s.tick.rand = s.rand := rfl
@[simp] theorem State.tick_draws : s.tick.draws = s.draws := rfl
@[simp] theorem State.tick_pending : s.tick.pending = s.pending := rfl
@[simp] theorem State.tick_result : s.tick.result = s.result := rfl
@[simp] theorem State.tick_reg (r : Reg) : s.tick.reg r = s.reg r := rfl
@[simp] theorem State.tick_readByte (a : Nat) : s.tick.readByte a = s.readByte a := rfl
@[simp] theorem State.tick_row (r : Fin 32) : s.tick.row r = s.row r := rfl
@[simp] theorem State.tick_stackEntry (k : Nat) : s.tick.stackEntry k = s.stackEntry k := rfl

/-! ## ticks -/

@[simp] theorem State.ticks_cfg (n : Nat) : (s.ticks n).cfg = s.cfg := rfl
@[simp] theorem State.ticks_V (n : Nat) : (s.ticks n).V = s.V := rfl
@[simp] theorem State.ticks_I (n : Nat) : (s.ticks n).I = s.I := rfl
@[simp] theorem State.ticks_pc (n : Nat) : (s.ticks n).pc = s.pc := rfl
@[simp] theorem State.ticks_SP (n : Nat) : (s.ticks n).SP = s.SP := rfl
@[simp] theorem State.ticks_STACK (n : Nat) : (s.ticks n).STACK = s.STACK := rfl
@[simp] theorem State.ticks_DT (n : Nat) : (s.ticks n).DT = timerTicks n s.DT := rfl
@[simp] theorem State.ticks_ST (n : Nat) : (s.ticks n).ST = timerTicks n s.ST := rfl
@[simp] theorem State.ticks_M (n : Nat) : (s.ticks n).M = s.M := rfl
@[simp] theorem State.ticks_DISP (n : Nat) : (s.ticks n).DISP = s.DISP := rfl
@[simp] theorem State.ticks_halted (n : Nat) : (s.ticks n).halted = s.halted := rfl
@[simp] theorem State.ticks_KEYS (n : Nat) : (s.ticks n).KEYS = s.KEYS := rfl
@[simp] theorem State.ticks_rand (n : Nat) : (s.ticks n).rand = s.rand := rfl
@[simp] theorem State.ticks_draws (n : Nat) : (s.ticks n).draws = s.draws := rfl
@[simp] theorem State.ticks_pending (n : Nat) : (s.ticks n).pending = s.pending := rfl
@[simp] theorem State.ticks_result (n : Nat) : (s.ticks n).result = s.result := rfl
@[simp] theorem State.ticks_reg (n : Nat) (r : Reg) : (s.ticks n).reg r = s.reg r := rfl
@[simp] theorem State.ticks_readByte (n : Nat) (a : Nat) : (s.ticks n).readByte a = s.readByte a := rfl
@[simp] theorem State.ticks_row (n : Nat) (r : Fin 32) : (s.ticks n).row r = s.row r := rfl
@[simp] theorem State.ticks_stackEntry (n : Nat) (k : Nat) : (s.ticks n).stackEntry k = s.stackEntry k := rfl

/-! ## skipIf -/

@[simp] theorem State.skipIf_cfg (c : Bool) : (s.skipIf c).cfg = s.cfg := by cases c <;> rfl
@[simp] theorem State.skipIf_V (c : Bool) : (s.skipIf c).V = s.V := by cases c <;> rfl
@[simp] theorem State.skipIf_I (c : Bool) : (s.skipIf c).I = s.I := by cases c <;> rfl
@[simp] theorem State.skipIf_pc (c : Bool) : (s.skipIf c).pc = if c then s.pc + 2 else s.pc := by
  cases c <;> rfl
@[simp] theorem State.skipIf_SP (c : Bool) : (s.skipIf c).SP = s.SP := by cases c <;> rfl
@[simp] theorem State.skipIf_STACK (c : Bool) : (s.skipIf c).STACK = s.STACK := by cases c <;> rfl
@[simp] theorem State.skipIf_DT (c : Bool) : (s.skipIf c).DT = s.DT := by cases c <;> rfl
@[simp] theorem State.skipIf_ST (c : Bool) : (s.skipIf c).ST = s.ST := by cases c <;> rfl
@[simp] theorem State.skipIf_M (c : Bool) : (s.skipIf c).M = s.M := by cases c <;> rfl
@[simp] theorem State.skipIf_DISP (c : Bool) : (s.skipIf c).DISP = s.DISP := by cases c <;> rfl
@[simp] theorem State.skipIf_halted (c : Bool) : (s.skipIf c).halted = s.halted := by cases c <;> rfl
@[simp] theorem State.skipIf_KEYS (c : Bool) : (s.skipIf c).KEYS = s.KEYS := by cases c <;> rfl
@[simp] theorem State.skipIf_rand (c : Bool) : (s.skipIf c).rand = s.rand := by cases c <;> rfl
@[simp] theorem State.skipIf_draws (c : Bool) : (s.skipIf c).draws = s.draws := by cases c <;> rfl
@[simp] theorem State.skipIf_pending (c : Bool) : (s.skipIf c).pending = s.pending := by cases c <;> rfl
@[simp] theorem State.skipIf_result (c : Bool) : (s.skipIf c).result = s.result := by cases c <;> rfl
@[simp] theorem State.skipIf_reg (c : Bool) (r : Reg) : (s.skipIf c).reg r = s.reg r := by cases c <;> rfl
@[simp] theorem State.skipIf_readByte (c : Bool) (a : Nat) : (s.skipIf c).readByte a = s.readByte a := by cases c <;> rfl
@[simp] theorem State.skipIf_row (c : Bool) (r : Fin 32) : (s.skipIf c).row r = s.row r := by cases c <;> rfl
@[simp] theorem State.skipIf_stackEntry (c : Bool) (k : Nat) : (s.skipIf c).stackEntry k = s.stackEntry k := by cases c <;> rfl

/-! ## setFlagged -/

@[simp] theorem State.setFlagged_cfg (x : Reg) (r : Flagged) : (s.setFlagged x r).cfg = s.cfg := by
  unfold State.setFlagged; split <;> rfl
@[simp] theorem State.setFlagged_I (x : Reg) (r : Flagged) : (s.setFlagged x r).I = s.I := by
  unfold State.setFlagged; split <;> rfl
@[simp] theorem State.setFlagged_pc (x : Reg) (r : Flagged) : (s.setFlagged x r).pc = s.pc := by
  unfold State.setFlagged; split <;> rfl
@[simp] theorem State.setFlagged_SP (x : Reg) (r : Flagged) : (s.setFlagged x r).SP = s.SP := by
  unfold State.setFlagged; split <;> rfl
@[simp] theorem State.setFlagged_STACK (x : Reg) (r : Flagged) : (s.setFlagged x r).STACK = s.STACK := by
  unfold State.setFlagged; split <;> rfl
@[simp] theorem State.setFlagged_DT (x : Reg) (r : Flagged) : (s.setFlagged x r).DT = s.DT := by
  unfold State.setFlagged; split <;> rfl
@[simp] theorem State.setFlagged_ST (x : Reg) (r : Flagged) : (s.setFlagged x r).ST = s.ST := by
  unfold State.setFlagged; split <;> rfl
@[simp] theorem State.setFlagged_M (x : Reg) (r : Flagged) : (s.setFlagged x r).M = s.M := by
  unfold State.setFlagged; split <;> rfl
@[simp] theorem State.setFlagged_DISP (x : Reg) (r : Flagged) : (s.setFlagged x r).DISP = s.DISP := by
  unfold State.setFlagged; split <;> rfl
@[simp] theorem State.setFlagged_halted (x : Reg) (r : Flagged) : (s.setFlagged x r).halted = s.halted := by
  unfold State.setFlagged; split <;> rfl
@[simp] theorem State.setFlagged_KEYS (x : Reg) (r : Flagged) : (s.setFlagged x r).KEYS = s.KEYS := by
  unfold State.setFlagged; split <;> rfl
@[simp] theorem State.setFlagged_rand (x : Reg) (r : Flagged) : (s.setFlagged x r).rand = s.rand := by
  unfold State.setFlagged; split <;> rfl
@[simp] theorem State.setFlagged_draws (x : Reg) (r : Flagged) : (s.setFlagged x r).draws = s.draws := by
  unfold State.setFlagged; split <;> rfl
@[simp] theorem State.setFlagged_pending (x : Reg) (r : Flagged) : (s.setFlagged x r).pending = s.pending := by
  unfold State.setFlagged; split <;> rfl
@[simp] theorem State.setFlagged_result (x : Reg) (r : Flagged) : (s.setFlagged x r).result = s.result := by
  unfold State.setFlagged; split <;> rfl
@[simp] theorem State.setFlagged_readByte (x : Reg) (f : Flagged) (a : Nat) :
    (s.setFlagged x f).readByte a = s.readByte a := by unfold State.setFlagged; split <;> rfl
@[simp] theorem State.setFlagged_row (x : Reg) (f : Flagged) (r : Fin 32) :
    (s.setFlagged x f).row r = s.row r := by unfold State.setFlagged; split <;> rfl
@[simp] theorem State.setFlagged_stackEntry (x : Reg) (f : Flagged) (k : Nat) :
    (s.setFlagged x f).stackEntry k = s.stackEntry k := by unfold State.setFlagged; split <;> rfl

end Sys2Proof.Machine
end

