-- ==== Sys2Proof/Laws/Memory.lean ====
section
/-! SUPPORT. The laws of memory: read after write, every operation keeps the canonical form and the address space, and
the single-word layout of an instruction in memory. -/

namespace Sys2Proof.Machine

variable {font : Vector Byte fontLen} {m : Memory}

/-! ## Reading after listing and unlisting -/

theorem Memory.lookup_put (a b : Nat) (v : Byte) :
    (m.put a v).lookup b = if b = a then some v else m.lookup b := by
  induction m with
  | nil => simp only [Memory.put, Memory.lookup]
  | cons c rest ih =>
    obtain ⟨k, w⟩ := c
    simp only [Memory.put]
    split
    · simp only [Memory.lookup]
    · split
      · subst_vars; simp only [Memory.lookup]; split <;> rfl
      · simp only [Memory.lookup, ih]
        by_cases hb : b = k
        · subst hb; rw [if_pos rfl, if_neg (by omega), if_pos rfl]
        · rw [if_neg hb, if_neg hb]

theorem Memory.lookup_filter_ne (a b : Nat) :
    Memory.lookup (m.filter fun c => decide (c.1 ≠ a)) b = if b = a then none else m.lookup b := by
  induction m with
  | nil => simp [Memory.lookup]
  | cons c rest ih =>
    obtain ⟨k, w⟩ := c
    rw [List.filter_cons]
    by_cases hk : k = a
    · subst hk
      simp only [ne_eq, not_true_eq_false, decide_false, Bool.false_eq_true, if_false, ih, Memory.lookup]
      split <;> rfl
    · simp only [ne_eq, hk, not_false_eq_true, decide_true, if_true, Memory.lookup, ih]
      by_cases hb : b = k
      · subst hb; rw [if_pos rfl, if_neg hk, if_pos rfl]
      · rw [if_neg hb, if_neg hb]

/-- Read after write (R70): the written byte at the written address, every other byte as before. -/
theorem Memory.read_write (a b : Nat) (v : Byte) :
    (m.write font a v).read font b = if b = a then v else m.read font b := by
  unfold Memory.write Memory.read
  split
  · rename_i hv
    rw [Memory.lookup_filter_ne]
    split
    · subst_vars; rfl
    · rfl
  · rw [Memory.lookup_put]
    split <;> rfl

theorem Memory.read_write_same (a : Nat) (v : Byte) : (m.write font a v).read font a = v := by
  rw [Memory.read_write, if_pos rfl]

theorem Memory.read_write_other {a b : Nat} (v : Byte) (h : b ≠ a) :
    (m.write font a v).read font b = m.read font b := by
  rw [Memory.read_write, if_neg h]

/-- A byte no write of a list goes to is unchanged. -/
theorem Memory.read_writeAll_other (cells : List Host.Cell) {b : Nat} (h : ∀ c ∈ cells, c.1 ≠ b) :
    (m.writeAll font cells).read font b = m.read font b := by
  induction cells generalizing m with
  | nil => rfl
  | cons c rest ih =>
    obtain ⟨a, v⟩ := c
    simp only [Memory.writeAll]
    rw [ih fun c hc => h c (List.mem_cons_of_mem _ hc),
      Memory.read_write_other v (Ne.symm (h (a, v) (List.mem_cons_self ..)))]

/-- With distinct addresses, each byte of the list reads back. -/
theorem Memory.read_writeAll_mem (cells : List Host.Cell) (hd : (cells.map (·.1)).Nodup) {a : Nat} {v : Byte}
    (h : (a, v) ∈ cells) : (m.writeAll font cells).read font a = v := by
  induction cells generalizing m with
  | nil => cases h
  | cons c rest ih =>
    obtain ⟨b, w⟩ := c
    rw [List.map_cons, List.nodup_cons] at hd
    simp only [Memory.writeAll]
    rcases List.mem_cons.mp h with he | hr
    · cases he
      rw [Memory.read_writeAll_other rest fun c hc heq => hd.1 (List.mem_map.mpr ⟨c, hc, heq⟩),
        Memory.read_write_same]
    · exact ih hd.2 hr

/-- Memory with nothing listed reads as construction left it (R290). -/
theorem Memory.read_nil (a : Nat) : Memory.read font [] a = Memory.initial font a := rfl

/-! ## The canonical form and the address space are kept -/

theorem Memory.mem_put {a : Nat} {v : Byte} {c : Host.Cell} (h : c ∈ m.put a v) : c = (a, v) ∨ c ∈ m := by
  induction m with
  | nil => simpa [Memory.put] using h
  | cons d rest ih =>
    obtain ⟨k, w⟩ := d
    simp only [Memory.put] at h
    split at h
    · simpa using h
    · split at h
      · rcases List.mem_cons.mp h with h | h
        · exact .inl h
        · exact .inr (List.mem_cons_of_mem _ h)
      · rcases List.mem_cons.mp h with h | h
        · exact .inr (h ▸ List.mem_cons_self ..)
        · exact (ih h).imp id (List.mem_cons_of_mem _)

theorem Memory.rising_put (h : m.Pairwise fun c d => c.1 < d.1) (a : Nat) (v : Byte) :
    (m.put a v).Pairwise fun c d => c.1 < d.1 := by
  induction m with
  | nil => exact List.pairwise_singleton _ _
  | cons d rest ih =>
    obtain ⟨k, w⟩ := d
    rw [List.pairwise_cons] at h
    simp only [Memory.put]
    split
    · rename_i hlt
      refine List.pairwise_cons.mpr ⟨fun c hc => ?_, List.pairwise_cons.mpr h⟩
      rcases List.mem_cons.mp hc with rfl | hc
      · exact hlt
      · exact Nat.lt_trans hlt (h.1 c hc)
    · split
      · subst_vars; exact List.pairwise_cons.mpr h
      · rename_i hlt hne
        refine List.pairwise_cons.mpr ⟨fun c hc => ?_, ih h.2⟩
        rcases Memory.mem_put hc with rfl | hc
        · show k < a; omega
        · exact h.1 c hc

theorem Memory.wf_iff : m.wf font = true ↔
    (m.Pairwise fun c d => c.1 < d.1) ∧ ∀ c ∈ m, c.2 ≠ Memory.initial font c.1 := by
  simp only [Memory.wf, Bool.and_eq_true, decide_eq_true_eq, List.all_eq_true]

theorem Memory.within_iff {size : Nat} : m.within size = true ↔ ∀ c ∈ m, c.1 < size := by
  simp only [Memory.within, List.all_eq_true, decide_eq_true_eq]

theorem Memory.wf_write (h : m.wf font = true) (a : Nat) (v : Byte) : (m.write font a v).wf font = true := by
  rw [Memory.wf_iff] at h ⊢
  unfold Memory.write
  split
  · exact ⟨h.1.filter _, fun c hc => h.2 c (List.mem_of_mem_filter hc)⟩
  · rename_i hv
    refine ⟨Memory.rising_put h.1 a v, fun c hc => ?_⟩
    rcases Memory.mem_put hc with rfl | hc
    · exact hv
    · exact h.2 c hc

theorem Memory.within_write {size : Nat} (h : m.within size = true) {a : Nat} (ha : a < size) (v : Byte) :
    (m.write font a v).within size = true := by
  rw [Memory.within_iff] at h ⊢
  unfold Memory.write
  split
  · exact fun c hc => h c (List.mem_of_mem_filter hc)
  · intro c hc
    rcases Memory.mem_put hc with rfl | hc
    · exact ha
    · exact h c hc

theorem Memory.wf_writeAll (cells : List Host.Cell) (h : m.wf font = true) :
    (m.writeAll font cells).wf font = true := by
  induction cells generalizing m with
  | nil => exact h
  | cons c rest ih => exact ih (Memory.wf_write h c.1 c.2)

theorem Memory.within_writeAll {size : Nat} (cells : List Host.Cell) (h : m.within size = true)
    (hc : ∀ c ∈ cells, c.1 < size) : (m.writeAll font cells).within size = true := by
  induction cells generalizing m with
  | nil => exact h
  | cons c rest ih =>
    exact ih (Memory.within_write h (hc c (List.mem_cons_self ..)) c.2) fun d hd => hc d (List.mem_cons_of_mem _ hd)

/-- Reset memory is canonical and within the address space. -/
theorem reset_memory_wf : State.reset.M.wf State.reset.cfg.font = true ∧
    State.reset.M.within State.reset.cfg.memSize = true := ⟨rfl, rfl⟩

/-! ## Bytes and words -/

theorem readByte_eq (s : State) (a : Nat) : s.readByte a = s.M.read s.cfg.font a := rfl

theorem readByte_writeBytes_other (s : State) (cells : List Host.Cell) {b : Nat} (h : ∀ c ∈ cells, c.1 ≠ b) :
    (s.writeBytes cells).readByte b = s.readByte b := Memory.read_writeAll_other cells h

theorem readByte_writeBytes_mem (s : State) (cells : List Host.Cell) (hd : (cells.map (·.1)).Nodup) {a : Nat}
    {v : Byte} (h : (a, v) ∈ cells) : (s.writeBytes cells).readByte a = v := Memory.read_writeAll_mem cells hd h

/-- A word laid out high byte first reads back as itself (R64). -/
theorem wordOfBytes_high_low (w : Word) : wordOfBytes (highByte w) (lowByte w) = w := by
  apply BitVec.eq_of_toNat_eq
  simp only [wordOfBytes, highByte, lowByte, BitVec.toNat_append, BitVec.extractLsb'_toNat, Nat.shiftRight_zero]
  rw [Nat.shiftLeft_eq, Nat.shiftRight_eq_div_pow]
  have := w.isLt
  rw [Nat.mul_comm, ← Nat.two_pow_add_eq_or_of_lt (Nat.mod_lt _ (by decide))]
  omega

end Sys2Proof.Machine
end

