-- ==== Sys2Proof/Laws/Ops.lean ====
section
/-! SUPPORT. One lemma per shared operation that says everything it can do: registers, flags, the data addresses, the
draw loop, raising, and the inversion of one cycle and one step. -/

namespace Sys2Proof.Machine

variable (s : State)

/-! ## Registers -/

theorem reg_setReg (x r : Reg) (v : Byte) : (s.setReg x v).reg r = if r = x then v else s.reg r := by
  unfold State.reg State.setReg
  simp only [Fin.getElem_fin, Vector.getElem_set]
  by_cases h : r = x
  · subst h; simp
  · rw [if_neg (fun e => h (Fin.ext e.symm)), if_neg h]

@[simp] theorem reg_setReg_same (x : Reg) (v : Byte) : (s.setReg x v).reg x = v := by
  rw [reg_setReg, if_pos rfl]

theorem reg_setReg_other {x r : Reg} (v : Byte) (h : r ≠ x) : (s.setReg x v).reg r = s.reg r := by
  rw [reg_setReg, if_neg h]

theorem reg_loadRegBlock (bytes : List Byte) (r : Reg) :
    (s.loadRegBlock bytes).reg r = bytes[r.val]?.getD (s.reg r) := by
  show (Vector.ofFn fun r : Reg => bytes[r.val]?.getD (s.reg r))[r] = _
  simp only [Fin.getElem_fin, Vector.getElem_ofFn]

/-- Every register after a flag-writing instruction, in either order (R173). -/
theorem reg_setFlagged (x r : Reg) (f : Flagged) : (s.setFlagged x f).reg r =
    match s.cfg.vfWriteOrder with
    | .flagLast => if r = VF then f.flag else if r = x then f.result else s.reg r
    | .resultLast => if r = x then f.result else if r = VF then f.flag else s.reg r := by
  unfold State.setFlagged
  cases s.cfg.vfWriteOrder <;> simp only [reg_setReg]

/-! ## Results and flags as numbers (R172) -/

theorem toNat_flagByte (c : Bool) : (flagByte c).toNat = if c then 1 else 0 := by cases c <;> rfl

theorem addFlagged_result (a b : Byte) : (addFlagged a b).result.toNat = (a.toNat + b.toNat) % 256 := by
  simp only [addFlagged, BitVec.toNat_ofNat]

theorem subFlagged_result (a b : Byte) : (subFlagged a b).result.toNat = (a.toNat + 256 - b.toNat) % 256 := by
  have ha := a.isLt
  have hb := b.isLt
  simp only [subFlagged, BitVec.toNat_ofInt]
  omega

theorem shrFlagged_result (a : Byte) : (shrFlagged a).result.toNat = a.toNat / 2 := by
  simp only [shrFlagged, BitVec.toNat_ushiftRight, Nat.shiftRight_eq_div_pow, Nat.pow_one]

theorem shlFlagged_result (a : Byte) : (shlFlagged a).result.toNat = a.toNat * 2 % 256 := by
  simp only [shlFlagged, BitVec.toNat_shiftLeft, Nat.shiftLeft_eq, Nat.pow_one]

/-! ## Data addresses -/

variable {cfg : Config}

theorem effectiveAddr_inside {a : Nat} (h : a < cfg.memSize) : effectiveAddr cfg a = .ok a := by
  unfold effectiveAddr; rw [if_pos h]

theorem effectiveAddr_wrap (hp : cfg.boundsPolicy = .wrap) (a : Nat) :
    effectiveAddr cfg a = .ok (if a < cfg.memSize then a else a % cfg.memSize) := by
  unfold effectiveAddr
  split
  · rfl
  · rw [hp]

theorem effectiveAddr_fail (hp : cfg.boundsPolicy = .fail) {a : Nat} (h : cfg.memSize ≤ a) :
    effectiveAddr cfg a = .error a := by
  unfold effectiveAddr; rw [if_neg (Nat.not_lt.mpr h), hp]

/-- A resolved address exists (R66). -/
theorem effectiveAddr_lt (hm : 0 < cfg.memSize) {a b : Nat} (h : effectiveAddr cfg a = .ok b) : b < cfg.memSize := by
  unfold effectiveAddr at h
  split at h
  · cases h; assumption
  · split at h
    · cases h
    · cases h; exact Nat.mod_lt _ hm

/-- `resolve` answers either all `count` addresses, each the `EA` of its own, or an address that `EA` refuses. -/
theorem resolve_ok {base count : Nat} {addrs : List Nat} (h : resolve cfg base count = .ok addrs) :
    addrs.length = count ∧ ∀ k (hk : k < addrs.length), effectiveAddr cfg (base + k) = .ok addrs[k] := by
  induction count generalizing base addrs with
  | zero => cases h; exact ⟨rfl, fun k hk => absurd hk (Nat.not_lt_zero _)⟩
  | succ n ih =>
    simp only [resolve] at h
    split at h
    · cases h
    · rename_i a ha
      split at h
      · cases h
      · rename_i rest hr
        cases h
        obtain ⟨hl, hk⟩ := ih hr
        refine ⟨by simp [hl], fun k hlt => ?_⟩
        cases k with
        | zero => exact ha
        | succ k =>
          rw [List.getElem_cons_succ, ← hk k (by simpa using hlt)]
          congr 1
          omega

/-- Under `Wrap`, or within memory, every address resolves (R66 to R68). -/
theorem resolve_total {base count : Nat} (h : cfg.boundsPolicy = .wrap ∨ base + count ≤ cfg.memSize) :
    ∃ addrs, resolve cfg base count = .ok addrs := by
  induction count generalizing base with
  | zero => exact ⟨[], rfl⟩
  | succ n ih =>
    obtain ⟨rest, hr⟩ := ih (base := base + 1) (h.imp id fun h => by omega)
    have : ∃ a, effectiveAddr cfg base = .ok a := by
      rcases h with h | h
      · exact ⟨_, effectiveAddr_wrap h base⟩
      · exact ⟨_, effectiveAddr_inside (by omega)⟩
    obtain ⟨a, ha⟩ := this
    exact ⟨a :: rest, by simp only [resolve, ha, hr]⟩

/-- Under `Fail`, an access that reaches past memory reports its smallest out-of-range address (R67). -/
theorem resolve_outOfRange (hp : cfg.boundsPolicy = .fail) {base count : Nat} (hc : 0 < count)
    (h : cfg.memSize < base + count) : resolve cfg base count = .error (max base cfg.memSize) := by
  induction count generalizing base with
  | zero => omega
  | succ n ih =>
    by_cases hb : base < cfg.memSize
    · simp only [resolve, effectiveAddr_inside hb]
      rw [ih (by omega) (by omega)]
      simp only [Nat.max_eq_right (Nat.le_of_lt hb), Nat.max_eq_right hb]
    · simp only [resolve, effectiveAddr_fail hp (Nat.le_of_not_lt hb)]
      rw [Nat.max_eq_left (Nat.le_of_not_lt hb)]

/-- `dataAddr` is `EA(I + k)` of every accessible byte. -/
theorem effectiveAddr_dataAddr {s : State} {count k : Nat} (h : s.accessible count) (hk : k < count) :
    effectiveAddr s.cfg (s.I.toNat + k) = .ok (s.dataAddr k) := by
  unfold State.dataAddr
  rcases h with h | h
  · exact effectiveAddr_wrap h _
  · have hlt : s.I.toNat + k < s.cfg.memSize := by omega
    rw [effectiveAddr_inside hlt, if_pos hlt]

/-- The resolved addresses of an accessible block are the `dataAddr`s. -/
theorem resolve_accessible {s : State} {count : Nat} (h : s.accessible count) :
    resolve s.cfg s.I.toNat count = .ok ((List.range count).map s.dataAddr) := by
  obtain ⟨addrs, ha⟩ := resolve_total h
  obtain ⟨hl, hk⟩ := resolve_ok ha
  rw [ha]
  congr 1
  refine List.ext_getElem (by simp [hl]) fun k h1 h2 => ?_
  have := (hk k h1).symm.trans (effectiveAddr_dataAddr h (hl ▸ h1))
  simpa using this

/-- Accessible bytes at different offsets have different addresses when the block is no longer than memory. -/
theorem dataAddr_inj {s : State} {count j k : Nat} (h : s.accessible count) (hm : count ≤ s.cfg.memSize)
    (hj : j < count) (hk : k < count) (he : s.dataAddr j = s.dataAddr k) : j = k := by
  rcases h with _ | h
  · have key : ∀ n : Nat, (if n < s.cfg.memSize then n else n % s.cfg.memSize) = n % s.cfg.memSize := fun n => by
      split
      · rw [Nat.mod_eq_of_lt ‹_›]
      · rfl
    unfold State.dataAddr at he
    rw [key, key] at he
    have hjk := Nat.sub_mod_eq_zero_of_mod_eq he
    have hkj := Nat.sub_mod_eq_zero_of_mod_eq he.symm
    by_contra hne
    rcases Nat.lt_or_gt_of_ne hne with hlt | hlt
    · rw [show s.I.toNat + k - (s.I.toNat + j) = k - j by omega, Nat.mod_eq_of_lt (by omega)] at hkj
      omega
    · rw [show s.I.toNat + j - (s.I.toNat + k) = j - k by omega, Nat.mod_eq_of_lt (by omega)] at hjk
      omega
  · unfold State.dataAddr at he
    rw [if_pos (by omega), if_pos (by omega)] at he
    omega

/-- What an instruction that accesses memory can do: its effect on the resolved addresses, or the error with no other
effect (R67). -/
theorem withDataAddrs_cases {s t : State} {w : Word} {count : Nat} {k : List Nat → State}
    (h : s.withDataAddrs w count k = .next t) :
    (∃ addrs, resolve s.cfg s.I.toNat count = .ok addrs ∧ t = k addrs) ∨
    (∃ a, resolve s.cfg s.I.toNat count = .error a ∧
      t = { s with halted := some .memoryOutOfRange, result := some (.memoryOutOfRange a s.ipc w) }) := by
  unfold State.withDataAddrs at h
  split at h
  · rename_i a ha
    cases h
    exact .inr ⟨a, ha, rfl⟩
  · rename_i addrs ha
    cases h
    exact .inl ⟨addrs, ha, rfl⟩

theorem withDataAddrs_accessible {s : State} {count : Nat} (h : s.accessible count) (w : Word)
    (k : List Nat → State) : s.withDataAddrs w count k = .next (k ((List.range count).map s.dataAddr)) := by
  unfold State.withDataAddrs
  rw [resolve_accessible h]

/-- The same, or with no byte to access, wherever `I` points (R67, R213). -/
theorem withDataAddrs_completes {s : State} {count : Nat} (h : count = 0 ∨ s.accessible count) (w : Word)
    (k : List Nat → State) : s.withDataAddrs w count k = .next (k ((List.range count).map s.dataAddr)) := by
  rcases h with rfl | h
  · rfl
  · exact withDataAddrs_accessible h w k

theorem withDataAddrs_outOfRange {s : State} (hp : s.cfg.boundsPolicy = .fail) {count : Nat} (hc : 0 < count)
    (h : s.cfg.memSize < s.I.toNat + count) (w : Word) (k : List Nat → State) :
    s.withDataAddrs w count k = s.raiseOutOfRange w (max s.I.toNat s.cfg.memSize) := by
  unfold State.withDataAddrs
  rw [resolve_outOfRange hp hc h]

/-! ## The display -/

/-- The bits of a sprite mask: a sprite pixel on each column it covers (R211). -/
theorem getLsbD_spriteMask (b : Byte) {h c : Nat} (hh : h < 64) (hc : c < 64) :
    (spriteMask b h).getLsbD (63 - c) = spritePixel b h c := by
  have key : ∀ j, b.getLsbD (8 + j) = false := fun j => BitVec.getLsbD_of_ge _ _ (by omega)
  unfold spriteMask rotr64 spritePixel
  simp only [BitVec.getLsbD_or, BitVec.getLsbD_ushiftRight, BitVec.getLsbD_shiftLeft, BitVec.truncate_eq_setWidth,
    BitVec.getLsbD_setWidth]
  by_cases h1 : c < h
  · have e1 : (c + (64 - h)) % 64 = c + 64 - h := by omega
    rw [e1]
    have n1 : ¬ (h + (63 - c) < 64) := by omega
    have n2 : ¬ (63 - c < 64 - h) := by omega
    by_cases h8 : c + 64 - h < 8
    · have n3 : ¬ (63 - c - (64 - h) < 56) := by omega
      have e2 : 63 - c - (64 - h) - 56 = 7 - (c + 64 - h) := by omega
      have p1 : 63 - c < 64 := by omega
      have p2 : 63 - c - (64 - h) < 64 := by omega
      have p3 : 7 - (c + 64 - h) < 64 := by omega
      simp [n1, n2, n3, e2, p1, p2, p3, h8]
    · have p3 : 63 - c - (64 - h) < 56 := by omega
      simp [n1, n2, p3, h8]
  · have e1 : (c + (64 - h)) % 64 = c - h := by omega
    rw [e1]
    have p1 : h + (63 - c) < 64 := by omega
    have p2 : 63 - c < 64 - h := by omega
    by_cases h8 : c - h < 8
    · have n3 : ¬ (h + (63 - c) < 56) := by omega
      have e2 : h + (63 - c) - 56 = 7 - (c - h) := by omega
      have p4 : 7 - (c - h) < 64 := by omega
      simp [p1, p2, n3, e2, p4, h8]
    · have p3 : h + (63 - c) < 56 := by omega
      simp [p1, p2, p3, h8]

theorem getElem_setRow (d : Vector Row 32) (q r : Fin 32) (v : Row) :
    (d.set q v)[r] = if r = q then v else d[r] := by
  simp only [Fin.getElem_fin, Vector.getElem_set]
  by_cases h : r = q
  · subst h; simp
  · rw [if_neg fun e => h (Fin.ext e.symm), if_neg h]

@[simp] theorem row_setDisplay (d : Vector Row 32) (r : Fin 32) : (s.setDisplay d).row r = d[r] := rfl

/-- The draw loop, row by row: sprite row `j` goes to screen row `screenRow v0 j`, the others stay, and the flag says
whether some row collided (R213, R214). -/
theorem drawRows_spec (h : Nat) (bytes : List Byte) (v0 : Nat) (d : Vector Row 32) (hl : bytes.length ≤ 32) :
    (∀ j (hj : j < bytes.length),
      (drawRows h v0 bytes d).1[screenRow v0 j] = (compose d[screenRow v0 j] bytes[j] h).1) ∧
    (∀ r : Fin 32, (∀ j, j < bytes.length → screenRow v0 j ≠ r) → (drawRows h v0 bytes d).1[r] = d[r]) ∧
    ((drawRows h v0 bytes d).2 = true ↔
      ∃ j, ∃ hj : j < bytes.length, (compose d[screenRow v0 j] bytes[j] h).2 = true) := by
  have inj : ∀ v : Nat, ∀ j k, j < 32 → k < 32 → screenRow v j = screenRow v k → j = k := by
    intro v j k hj hk he
    have := congrArg Fin.val he
    simp only [screenRow, Fin.val_ofNat] at this
    omega
  have shift : ∀ v j, screenRow (v + 1) j = screenRow v (j + 1) := by
    intro v j
    unfold screenRow
    congr 1
    omega
  induction bytes generalizing v0 d with
  | nil => simp [drawRows]
  | cons b rest ih =>
    simp only [List.length_cons] at hl
    obtain ⟨i1, i2, i3⟩ := ih (v0 + 1) (d.set (screenRow v0 0) (compose d[screenRow v0 0] b h).1) (by omega)
    have other : ∀ j, j < rest.length →
        (d.set (screenRow v0 0) (compose d[screenRow v0 0] b h).1)[screenRow (v0 + 1) j] =
          d[screenRow v0 (j + 1)] := by
      intro j hj
      rw [getElem_setRow, if_neg]
      · simp only [shift]
      · rw [shift]
        intro he
        have := inj v0 (j + 1) 0 (by omega) (by omega) he
        omega
    simp only [drawRows]
    refine ⟨fun j hj => ?_, fun r hr => ?_, ?_⟩
    · cases j with
      | zero =>
        rw [i2 (screenRow v0 0) fun j hj he => by
          rw [shift] at he
          have := inj v0 (j + 1) 0 (by omega) (by omega) he
          omega, getElem_setRow, if_pos rfl]
        rfl
      | succ j =>
        have hj' : j < rest.length := by simpa using hj
        have := i1 j hj'
        rw [other j hj'] at this
        simpa only [shift, List.getElem_cons_succ] using this
    · rw [i2 r fun j hj he => hr (j + 1) (by simpa using hj) (by rw [← shift]; exact he)]
      rw [getElem_setRow, if_neg fun he => hr 0 (by simp) he.symm]
    · rw [Bool.or_eq_true, i3]
      constructor
      · rintro (h0 | ⟨j, hj, hc⟩)
        · exact ⟨0, by simp, by simpa using h0⟩
        · rw [other j hj] at hc
          exact ⟨j + 1, by simpa using hj, by simpa using hc⟩
      · rintro ⟨j, hj, hc⟩
        cases j with
        | zero => exact .inl (by simpa using hc)
        | succ j =>
          have hj' : j < rest.length := by simpa using hj
          exact .inr ⟨j, hj', by rw [other j hj']; simpa using hc⟩

/-! ## Keys -/

/-- The lowest held key: none exactly when no key is held (R235). -/
theorem lowestKey_none (keys : Word) : lowestKey keys = none ↔ keys = 0 := by
  unfold lowestKey
  rw [List.find?_eq_none]
  constructor
  · intro h
    apply BitVec.eq_of_getLsbD_eq
    intro i hi
    have := h i (List.mem_range.mpr hi)
    simpa using this
  · rintro rfl i _
    simp

/-- The lowest held key is held and no lower one is (R235). -/
theorem lowestKey_some {keys : Word} {k : Nat} (h : lowestKey keys = some k) :
    k < 16 ∧ keys.getLsbD k = true ∧ ∀ j, j < k → keys.getLsbD j = false := by
  unfold lowestKey at h
  rw [List.find?_range_eq_some] at h
  obtain ⟨h1, h2, h3⟩ := h
  exact ⟨List.mem_range.mp h2, h1, fun j hj => by simpa using h3 j hj⟩

/-! ## Timers -/

/-- A tick takes 1 from a timer, stopping at 0 (R270). -/
theorem toNat_timerTick (t : Byte) : (timerTick t).toNat = t.toNat - 1 := by
  unfold timerTick
  split <;> bv_omega

/-- `n` ticks take `n` from a timer, stopping at 0 (R270). -/
theorem toNat_timerTicks (n : Nat) (t : Byte) : (timerTicks n t).toNat = t.toNat - n := by
  have := t.isLt
  unfold timerTicks
  split
  · simp only [BitVec.toNat_ofNat]; omega
  · omega

theorem timerTicks_zero (t : Byte) : timerTicks 0 t = t := by
  apply BitVec.eq_of_toNat_eq; simp [toNat_timerTicks]

theorem timerTicks_succ (n : Nat) (t : Byte) : timerTicks (n + 1) t = timerTicks n (timerTick t) := by
  apply BitVec.eq_of_toNat_eq; simp only [toNat_timerTicks, toNat_timerTick]; omega

/-- No tick changes nothing. -/
theorem State.ticks_zero (s : State) : s.ticks 0 = s := by
  simp only [State.ticks, timerTicks_zero]

/-- Ticks are TICK operations one after another (R270). -/
theorem State.ticks_succ (n : Nat) (s : State) : s.ticks (n + 1) = s.tick.ticks n := by
  simp only [State.ticks, State.tick, timerTicks_succ]

/-! ## One cycle and one step -/

/-- Everything a cycle can do (R120, R258). -/
theorem cycle_cases {s t : State} {keys : Word} {rand : Byte} (h : s.cycle keys rand = .next t) :
    (∃ k, s.halted = some k ∧ t = { s with result := some (.halted k) }) ∨
    (s.halted = none ∧ s.fetchWord = none ∧
      t = { s with halted := some .fetchOutOfBounds, result := some (.fetchOutOfBounds s.pc) }) ∨
    (∃ w e, s.halted = none ∧ s.fetchWord = some w ∧ decode s.cfg.strictDecode w = .error e ∧
      t = { s with pc := s.pc + 2, result := some (.decodeError w s.pc) }) ∨
    (∃ w i, s.halted = none ∧ s.fetchWord = some w ∧ decode s.cfg.strictDecode w = .ok i ∧
      exec i (s.enter keys rand) = .next t) := by
  unfold State.cycle at h
  split at h
  · rename_i k hk
    cases h
    exact .inl ⟨k, hk, rfl⟩
  · rename_i hn
    split at h
    · rename_i hf
      cases h
      exact .inr (.inl ⟨hn, hf, rfl⟩)
    · rename_i w hf
      split at h
      · rename_i e he
        cases h
        exact .inr (.inr (.inl ⟨w, e, hn, hf, he, rfl⟩))
      · rename_i i hi
        exact .inr (.inr (.inr ⟨w, i, hn, hf, hi, h⟩))

/-- Everything a step can do: one host operation (R50), or with none pending a free number of ticks and a cycle (R271). -/
theorem step_cases {s t : State} (h : step s = .next t) :
    (s.pending = [] ∧ (({ s with draws := s.draws + 1 } : State).ticks (Config.freeTicks s.draws)).cycle
      (Config.freeKeys s.draws) (Config.freeRand s.draws) = .next t) ∨
    (∃ keys rand rest, s.pending = .cycle keys rand :: rest ∧
      ({ s with pending := rest } : State).cycle keys rand = .next t) ∨
    (∃ rest, s.pending = .tick :: rest ∧ t = ({ s with pending := rest } : State).tick) ∨
    (∃ rest, s.pending = .read :: rest ∧ t = { s with pending := rest }) ∨
    (∃ image rest u, s.pending = .reset image :: rest ∧ construct s.cfg image = .loadOk u ∧
      t = { u with draws := s.draws, pending := rest }) := by
  unfold step State.nextOp at h
  split at h
  · exact .inl ⟨‹_›, h⟩
  · rename_i op rest hp
    unfold State.hostOp at h
    split at h
    · exact .inr (.inl ⟨_, _, rest, hp, h⟩)
    · cases h; exact .inr (.inr (.inl ⟨rest, hp, rfl⟩))
    · cases h; exact .inr (.inr (.inr (.inl ⟨rest, hp, rfl⟩)))
    · split at h
      · rename_i image _ u hu
        cases h
        exact .inr (.inr (.inr (.inr ⟨image, rest, u, hp, hu, rfl⟩)))
      · cases h

/-! ## Placing a word -/

/-- The word placed at pc is the one the next fetch reads, wherever a fetch is possible. -/
theorem fetchWord_placeWord {s : State} (h : s.pc.toNat + 1 < s.cfg.memSize) (w : Word) :
    (s.placeWord w).fetchWord = some w := by
  have nd : (([(s.pc.toNat, highByte w), (s.pc.toNat + 1, lowByte w)] : List Host.Cell).map (·.1)).Nodup := by simp
  have hi := readByte_writeBytes_mem s _ nd (a := s.pc.toNat) (v := highByte w) (by simp)
  have lo := readByte_writeBytes_mem s _ nd (a := s.pc.toNat + 1) (v := lowByte w) (by simp)
  show (if s.pc.toNat + 1 < s.cfg.memSize then some (wordOfBytes
    ((s.writeBytes [(s.pc.toNat, highByte w), (s.pc.toNat + 1, lowByte w)]).readByte s.pc.toNat)
    ((s.writeBytes [(s.pc.toNat, highByte w), (s.pc.toNat + 1, lowByte w)]).readByte (s.pc.toNat + 1))) else none) = _
  rw [if_pos h, hi, lo, wordOfBytes_high_low]

/-- A cycle that fetches a word with a handler is that handler, from pc advanced by 2 (R120 to R123). -/
theorem cycle_run {s : State} {w : Word} {i : Instr} (hs : s.halted = none) (hf : s.fetchWord = some w)
    (hd : decode s.cfg.strictDecode w = .ok i) (keys : Word) (rand : Byte) :
    s.cycle keys rand = exec i (s.enter keys rand) := by
  unfold State.cycle
  rw [hs]
  simp only [hf, hd]

end Sys2Proof.Machine
end

