-- ==== Sys2Proof/Laws/PerInstr.lean ====
section
/-! SUPPORT. The per-instruction family MatchesTable: the word the encoder gives an instruction belongs to that
instruction's row of spec/opcode_table.json, under `mask`, and under `strict_mask` when it is well-formed with
`STRICT_DECODE = true` (30_encoding.md R101, R103). -/

namespace Sys2Proof.Laws.MatchesTable

/-- An instruction's word under its row's masks is the row's match. -/
def Statement (i : Instr) : Prop :=
  encode i &&& (tableRow i).mask = (tableRow i).value ∧
  (i.wf true = true → encode i &&& (tableRow i).strictMask = (tableRow i).value)

theorem zero_of_wf {u : Nibble} (h : keylessBitsOk true u = true) : u = 0 := by
  simpa [keylessBitsOk] using h

theorem cls (u : Nibble) : Statement (.cls u) :=
  ⟨enc0_and_key u _, fun h => by rw [zero_of_wf h]; exact enc0_and_all 0 _⟩

theorem ret (u : Nibble) : Statement (.ret u) :=
  ⟨enc0_and_key u _, fun h => by rw [zero_of_wf h]; exact enc0_and_all 0 _⟩

theorem jp (nnn : Addr12) : Statement (.jp nnn) := ⟨encA_and_op _ nnn, fun _ => encA_and_op _ nnn⟩

theorem call (nnn : Addr12) : Statement (.call nnn) := ⟨encA_and_op _ nnn, fun _ => encA_and_op _ nnn⟩

theorem seImm (x : Reg) (kk : Byte) : Statement (.seImm x kk) := ⟨encXK_and_op _ x kk, fun _ => encXK_and_op _ x kk⟩

theorem sneImm (x : Reg) (kk : Byte) : Statement (.sneImm x kk) := ⟨encXK_and_op _ x kk, fun _ => encXK_and_op _ x kk⟩

theorem seReg (x y : Reg) (u : Nibble) : Statement (.seReg x y u) :=
  ⟨encXY_and_op _ u x y, fun h => by rw [zero_of_wf h]; exact encXY_and_key _ 0 x y⟩

theorem ldImm (x : Reg) (kk : Byte) : Statement (.ldImm x kk) := ⟨encXK_and_op _ x kk, fun _ => encXK_and_op _ x kk⟩

theorem addImm (x : Reg) (kk : Byte) : Statement (.addImm x kk) := ⟨encXK_and_op _ x kk, fun _ => encXK_and_op _ x kk⟩

theorem ldReg (x y : Reg) : Statement (.ldReg x y) := ⟨encXY_and_key _ _ x y, fun _ => encXY_and_key _ _ x y⟩

theorem orReg (x y : Reg) : Statement (.orReg x y) := ⟨encXY_and_key _ _ x y, fun _ => encXY_and_key _ _ x y⟩

theorem andReg (x y : Reg) : Statement (.andReg x y) := ⟨encXY_and_key _ _ x y, fun _ => encXY_and_key _ _ x y⟩

theorem xorReg (x y : Reg) : Statement (.xorReg x y) := ⟨encXY_and_key _ _ x y, fun _ => encXY_and_key _ _ x y⟩

theorem addReg (x y : Reg) : Statement (.addReg x y) := ⟨encXY_and_key _ _ x y, fun _ => encXY_and_key _ _ x y⟩

theorem subReg (x y : Reg) : Statement (.subReg x y) := ⟨encXY_and_key _ _ x y, fun _ => encXY_and_key _ _ x y⟩

theorem shr (x y : Reg) : Statement (.shr x y) := ⟨encXY_and_key _ _ x y, fun _ => encXY_and_key _ _ x y⟩

theorem subnReg (x y : Reg) : Statement (.subnReg x y) := ⟨encXY_and_key _ _ x y, fun _ => encXY_and_key _ _ x y⟩

theorem shl (x y : Reg) : Statement (.shl x y) := ⟨encXY_and_key _ _ x y, fun _ => encXY_and_key _ _ x y⟩

theorem sneReg (x y : Reg) (u : Nibble) : Statement (.sneReg x y u) :=
  ⟨encXY_and_op _ u x y, fun h => by rw [zero_of_wf h]; exact encXY_and_key _ 0 x y⟩

theorem ldI (nnn : Addr12) : Statement (.ldI nnn) := ⟨encA_and_op _ nnn, fun _ => encA_and_op _ nnn⟩

theorem jpV0 (nnn : Addr12) : Statement (.jpV0 nnn) := ⟨encA_and_op _ nnn, fun _ => encA_and_op _ nnn⟩

theorem rnd (x : Reg) (kk : Byte) : Statement (.rnd x kk) := ⟨encXK_and_op _ x kk, fun _ => encXK_and_op _ x kk⟩

theorem drw (x y : Reg) (n : Nibble) : Statement (.drw x y n) :=
  ⟨encXY_and_op _ n x y, fun _ => encXY_and_op _ n x y⟩

theorem skp (x : Reg) : Statement (.skp x) := ⟨encXK_and_key _ x _, fun _ => encXK_and_key _ x _⟩

theorem sknp (x : Reg) : Statement (.sknp x) := ⟨encXK_and_key _ x _, fun _ => encXK_and_key _ x _⟩

theorem ldVxDT (x : Reg) : Statement (.ldVxDT x) := ⟨encXK_and_key _ x _, fun _ => encXK_and_key _ x _⟩

theorem ldVxK (x : Reg) : Statement (.ldVxK x) := ⟨encXK_and_key _ x _, fun _ => encXK_and_key _ x _⟩

theorem ldDTVx (x : Reg) : Statement (.ldDTVx x) := ⟨encXK_and_key _ x _, fun _ => encXK_and_key _ x _⟩

theorem ldSTVx (x : Reg) : Statement (.ldSTVx x) := ⟨encXK_and_key _ x _, fun _ => encXK_and_key _ x _⟩

theorem addI (x : Reg) : Statement (.addI x) := ⟨encXK_and_key _ x _, fun _ => encXK_and_key _ x _⟩

theorem ldF (x : Reg) : Statement (.ldF x) := ⟨encXK_and_key _ x _, fun _ => encXK_and_key _ x _⟩

theorem ldB (x : Reg) : Statement (.ldB x) := ⟨encXK_and_key _ x _, fun _ => encXK_and_key _ x _⟩

theorem storeRegs (x : Reg) : Statement (.storeRegs x) := ⟨encXK_and_key _ x _, fun _ => encXK_and_key _ x _⟩

theorem loadRegs (x : Reg) : Statement (.loadRegs x) := ⟨encXK_and_key _ x _, fun _ => encXK_and_key _ x _⟩

end Sys2Proof.Laws.MatchesTable
end

