-- ==== Sys2Proof/Tests/Slice0.lean ====
section
/-! SUPPORT. The model's own tests: ill-formed instructions refused, one word of every instruction decoded, single steps
on the spec's vectors (95_test_vectors.md, named in each test's comment), and for each statement with hypotheses a
witness that meets them. Expected values are the spec's. -/

open Sys2Proof Sys2Proof.Machine

namespace Sys2Proof.Tests

/-! ## Well-formedness: bits outside the key under STRICT_DECODE (R101) -/

theorem test_wf_cls_refused : (Instr.cls 1).wf true = false ∧ (Instr.cls 1).wf false = true := by decide
theorem test_wf_ret_refused : (Instr.ret 0xF).wf true = false ∧ (Instr.ret 0).wf true = true := by decide
theorem test_wf_seReg_refused : (Instr.seReg 1 2 1).wf true = false ∧ (Instr.seReg 1 2 0).wf true = true := by decide
theorem test_wf_sneReg_refused : (Instr.sneReg 1 2 8).wf true = false ∧ (Instr.sneReg 1 2 8).wf false = true := by
  decide

/-! ## Decoding: words written out from the patterns of R103 -/

theorem test_decode_family0 : decode false 0x00E0 = .ok (.cls 0) ∧ decode false 0x00EE = .ok (.ret 0) ∧
    decode false 0x01E0 = .ok (.cls 1) ∧ decode true 0x01E0 = .error .keylessBits ∧
    decode false 0x0123 = .error .unknownKey0 := by decide

theorem test_decode_control : decode false 0x1ABC = .ok (.jp 0xABC) ∧ decode false 0x2345 = .ok (.call 0x345) ∧
    decode false 0x3342 = .ok (.seImm 3 0x42) ∧ decode false 0x4A07 = .ok (.sneImm 10 0x07) ∧
    decode false 0x5120 = .ok (.seReg 1 2 0) ∧ decode true 0x5121 = .error .keylessBits ∧
    decode false 0x912F = .ok (.sneReg 1 2 0xF) ∧ decode false 0xBA00 = .ok (.jpV0 0xA00) := by decide

theorem test_decode_loads : decode false 0x6A5C = .ok (.ldImm 10 0x5C) ∧ decode false 0x7202 = .ok (.addImm 2 0x02) ∧
    decode false 0xC30F = .ok (.rnd 3 0x0F) ∧ decode false 0xA123 = .ok (.ldI 0x123) ∧
    decode false 0xD125 = .ok (.drw 1 2 5) := by decide

theorem test_decode_family8 : decode false 0x8120 = .ok (.ldReg 1 2) ∧ decode false 0x8121 = .ok (.orReg 1 2) ∧
    decode false 0x8122 = .ok (.andReg 1 2) ∧ decode false 0x8123 = .ok (.xorReg 1 2) ∧
    decode false 0x8124 = .ok (.addReg 1 2) ∧ decode false 0x8125 = .ok (.subReg 1 2) ∧
    decode false 0x8126 = .ok (.shr 1 2) ∧ decode false 0x8127 = .ok (.subnReg 1 2) ∧
    decode false 0x812E = .ok (.shl 1 2) ∧ decode false 0x8008 = .error .unknownKey8 := by decide

theorem test_decode_familyE : decode false 0xE39E = .ok (.skp 3) ∧ decode false 0xE3A1 = .ok (.sknp 3) ∧
    decode false 0xE000 = .error .unknownKeyE := by decide

theorem test_decode_familyF : decode false 0xF507 = .ok (.ldVxDT 5) ∧ decode false 0xF50A = .ok (.ldVxK 5) ∧
    decode false 0xF515 = .ok (.ldDTVx 5) ∧ decode false 0xF518 = .ok (.ldSTVx 5) ∧
    decode false 0xF51E = .ok (.addI 5) ∧ decode false 0xF529 = .ok (.ldF 5) ∧ decode false 0xF533 = .ok (.ldB 5) ∧
    decode false 0xF555 = .ok (.storeRegs 5) ∧ decode false 0xF565 = .ok (.loadRegs 5) ∧
    decode false 0xFFFF = .error .unknownKeyF := by decide

theorem test_decodeTableWord : decodeTableWord 16 0x8014 = some (.addReg 0 1) ∧ decodeTableWord 16 0x0000 = none := by
  decide

/-! ## Single steps -/

/-- The reset machine with some registers set. -/
def regs (l : List (Reg × Byte)) : State := l.foldl (fun s p => s.setReg p.1 p.2) State.reset

/-- The state after one step that fetches the word `w`, the step's cycle on the given keys and random byte. -/
def after (s : State) (w : Nat) (keys : Word := 0) (rand : Byte := 0) : Option State :=
  match step ({ s with pending := [.cycle keys rand] }.withFetchWord 16 w) with
  | .next t => some t
  | .fault _ => none
  | .refused _ => none

/-- A changed configuration. -/
def under (c : Config) (s : State) : State := { s with cfg := c }

abbrev wrapping : Config := { Config.default with boundsPolicy := .wrap }
abbrev strictly : Config := { Config.default with strictDecode := true }
abbrev resultLast : Config := { Config.default with vfWriteOrder := .resultLast }

/-- RST-3: an empty image gives the reset machine, whose first cycle is DecodeError(0000, 200). -/
theorem test_reset_then_decode_error : construct Config.default [] = .loadOk State.reset ∧
    step State.reset = .next { State.reset with pc := 0x202, draws := 1, result := some (.decodeError 0 0x200) } :=
  ⟨by decide, rfl⟩

/-- DEC-5, DEC-6: bits outside the key. -/
theorem test_strict_decode : (after (under strictly State.reset) 0x01E0).map (·.result) =
    some (some (.decodeError 0x01E0 0x200)) ∧ (after State.reset 0x01E0).map (·.result) = some (some .ok) := by decide

/-- DEC-9: the fetch at FFF. -/
theorem test_fetch_out_of_bounds : State.cycle 0 0 { State.reset with pc := 0xFFF } = .next { State.reset with
    pc := 0xFFF, halted := some .fetchOutOfBounds, result := some (.fetchOutOfBounds 0xFFF) } := rfl

/-- DEC-10: the fetch at FFE is legal. -/
theorem test_fetch_last_word : (after { State.reset with pc := 0xFFE } 0x1200).map (·.pc) = some 0x200 := by decide

/-- DEC-12: a halted core. -/
theorem test_halted : State.cycle 0 0 { State.reset with halted := some .stackOverflow } = .next { State.reset with
    halted := some .stackOverflow, result := some (.halted .stackOverflow) } := rfl

/-- KT-13, KT-14: TICK, and saturation at 0. -/
theorem test_tick : ((State.reset.setDT 1).tick.DT, (State.reset.setDT 1).tick.ST) = (0, 0) ∧
    ((State.reset.setDT 0xFF).setST 0xFF).tick.ST = 0xFE := by decide

/-- R270 several times over: 3 ticks take 5 to 2, 300 ticks take 0xFF to 0. -/
theorem test_ticks : ((State.reset.setDT 5).ticks 3).DT = 2 ∧ ((State.reset.setST 0xFF).ticks 300).ST = 0 := by decide

/-- DRW-1. -/
theorem test_cls : (after (State.reset.setDisplay (Vector.replicate 32 0xFF)) 0x00E0).map (·.DISP) =
    some (Vector.replicate 32 0) := by decide

/-- CF-4 and CF-5. -/
theorem test_ret : (after ({ State.reset.push 0x202 with pc := 0x400 }) 0x00EE).map (fun t => (t.pc, t.SP)) =
    some (0x202, 0) ∧ (after { State.reset with pc := 0x300 } 0x00EE).map (fun t => (t.result, t.pc, t.SP)) =
    some (some (.stackUnderflow 0x300 0x00EE), 0x302, 0) := by decide

/-- CF-1. -/
theorem test_jp : (after State.reset 0x1ABC).map (·.pc) = some 0xABC := by decide

/-- CF-7: the last legal call. -/
theorem test_call : (after { State.reset with pc := 0x300, SP := 15 } 0x2400).map
    (fun t => (t.stackEntry 15, t.SP, t.pc)) = some (0x302, 16, 0x400) := by decide

/-- CF-6. -/
theorem test_call_overflow : (after { State.reset with pc := 0x300, SP := 16 } 0x2400).map
    (fun t => (t.result, t.SP, t.pc)) = some (some (.stackOverflow 0x300 0x2400), 16, 0x302) := by decide

/-- CF-9. -/
theorem test_seImm : (after (regs [(3, 0x42)]) 0x3342).map (·.pc) = some 0x204 ∧
    (after (regs [(3, 0x42)]) 0x3343).map (·.pc) = some 0x202 := by decide

/-- CF-10. -/
theorem test_sneImm : (after (regs [(3, 0x42)]) 0x4342).map (·.pc) = some 0x202 ∧
    (after (regs [(3, 0x42)]) 0x4300).map (·.pc) = some 0x204 := by decide

/-- CF-12, CF-13. -/
theorem test_seReg : (after (regs [(1, 7), (2, 7)]) 0x5120).map (·.pc) = some 0x204 ∧
    (after (regs [(1, 7), (2, 8)]) 0x5120).map (·.pc) = some 0x202 := by decide

/-- CF-13, CF-14. -/
theorem test_sneReg : (after (regs [(1, 7), (2, 8)]) 0x9120).map (·.pc) = some 0x204 ∧
    (after (regs [(4, 7)]) 0x9440).map (·.pc) = some 0x202 := by decide

/-- CF-16, CF-17. -/
theorem test_jpV0 : (after (regs [(0, 0xFF)]) 0xBFFF).map (·.pc) = some 0x10FE ∧
    (after (regs [(0xA, 0x50)]) 0xBA00).map (·.pc) = some 0xA00 := by decide

/-- AL-1. -/
theorem test_ldImm : (after State.reset 0x6A5C).map (·.reg 0xA) = some 0x5C := by decide

/-- AL-2. -/
theorem test_addImm : (after (regs [(2, 0xFF), (0xF, 0x55)]) 0x7202).map (fun t => (t.reg 2, t.reg VF)) =
    some (0x01, 0x55) := by decide

/-- AL-4. -/
theorem test_ldReg : (after (regs [(1, 0x33)]) 0x8010).map (·.reg 0) = some 0x33 := by decide

/-- AL-5. -/
theorem test_orReg : (after (regs [(0, 0xF0), (1, 0x0F), (0xF, 0x77)]) 0x8011).map (fun t => (t.reg 0, t.reg VF)) =
    some (0xFF, 0x77) := by decide

/-- AL-6. -/
theorem test_andReg : (after (regs [(0, 0xF0), (1, 0x3C), (0xF, 0x77)]) 0x8012).map (fun t => (t.reg 0, t.reg VF)) =
    some (0x30, 0x77) := by decide

/-- AL-7. -/
theorem test_xorReg : (after (regs [(0, 0xF0), (1, 0x3C), (0xF, 0x77)]) 0x8013).map (fun t => (t.reg 0, t.reg VF)) =
    some (0xCC, 0x77) := by decide

/-- AL-9. -/
theorem test_addReg : (after (regs [(0, 0xFF), (1, 0x01)]) 0x8014).map (fun t => (t.reg 0, t.reg VF)) =
    some (0x00, 1) := by decide

/-- AL-15: x = 15 under both write orders. -/
theorem test_addReg_order : (after (regs [(0xF, 0x01), (1, 0x01)]) 0x8F14).map (·.reg VF) = some 0x00 ∧
    (after (under resultLast (regs [(0xF, 0x01), (1, 0x01)])) 0x8F14).map (·.reg VF) = some 0x02 := by decide

/-- AL-17, AL-18. -/
theorem test_subReg : (after (regs [(0, 0x03), (1, 0x05)]) 0x8015).map (fun t => (t.reg 0, t.reg VF)) =
    some (0xFE, 0) ∧ (after (regs [(0, 0x07), (1, 0x07)]) 0x8015).map (fun t => (t.reg 0, t.reg VF)) =
    some (0x00, 1) := by decide

/-- AL-26, AL-27. -/
theorem test_shr : (after (regs [(0, 0x02), (1, 0xFF)]) 0x8016).map (fun t => (t.reg 0, t.reg VF)) =
    some (0x01, 0) ∧ (after (under resultLast (regs [(0xF, 0x05)])) 0x8FF6).map (·.reg VF) = some 0x02 := by decide

/-- AL-21, AL-22. -/
theorem test_subnReg : (after (regs [(0, 0x03), (1, 0x05)]) 0x8017).map (fun t => (t.reg 0, t.reg VF)) =
    some (0x02, 1) ∧ (after (regs [(0, 0x05), (1, 0x03)]) 0x8017).map (fun t => (t.reg 0, t.reg VF)) =
    some (0xFE, 0) := by decide

/-- AL-29, AL-31. -/
theorem test_shl : (after (regs [(0, 0x7F)]) 0x800E).map (fun t => (t.reg 0, t.reg VF)) = some (0xFE, 0) ∧
    (after (regs [(0, 0x81)]) 0x800E).map (fun t => (t.reg 0, t.reg VF)) = some (0x02, 1) := by decide

/-- AL-33. -/
theorem test_rnd : (after State.reset 0xC30F 0 0xA5).map (·.reg 3) = some 0x05 := by decide

/-- MEM-1. -/
theorem test_ldI : (after State.reset 0xA123).map (·.I) = some 0x0123 := by decide

/-- MEM-2, MEM-3. -/
theorem test_addI : (after ((regs [(2, 0x01), (0xF, 0x77)]).setI 0x0FFF) 0xF21E).map (fun t => (t.I, t.reg VF)) =
    some (0x1000, 0x77) ∧ (after ((regs [(2, 0x02)]).setI 0xFFFF) 0xF21E).map (·.I) = some 0x0001 := by decide

/-- MEM-4, MEM-5. -/
theorem test_ldF : (after (regs [(0, 0x0A)]) 0xF029).map (·.I) = some 0x0032 ∧
    (after (regs [(0, 0xFF)]) 0xF029).map (·.I) = some 0x04FB := by decide

/-- MEM-6. -/
theorem test_ldB : (after ((regs [(0, 100)]).setI 0x300) 0xF033).map
    (fun t => (t.readByte 0x300, t.readByte 0x301, t.readByte 0x302, t.I)) = some (1, 0, 0, 0x300) := by decide

/-- MEM-8 under both bounds policies. -/
theorem test_ldB_edge : (after ({ (regs [(0, 0xFF)]).setI 0xFFE with pc := 0x204 }) 0xF033).map
    (fun t => (t.result, t.pc, t.readByte 0xFFE)) = some (some (.memoryOutOfRange 0x1000 0x204 0xF033), 0x206, 0) ∧
    (after (under wrapping ((regs [(0, 0xFF)]).setI 0xFFE)) 0xF033).map
    (fun t => (t.readByte 0xFFE, t.readByte 0xFFF, t.readByte 0x000)) = some (2, 5, 5) := by decide

/-- MEM-10, MEM-14. -/
theorem test_storeRegs : (after ((regs [(0, 1), (1, 2), (2, 3)]).setI 0x300) 0xF255).map
    (fun t => (t.readByte 0x300, t.readByte 0x301, t.readByte 0x302, t.I)) = some (1, 2, 3, 0x303) ∧
    (after (State.reset.setI 0x1000) 0xFF55).map (fun t => (t.halted, t.I)) =
    some (some .memoryOutOfRange, 0x1000) := by decide

/-- MEM-12, MEM-16. -/
theorem test_loadRegs : (after ((State.reset.writeBytes [(0x300, 0xAB)]).setI 0x300) 0xF065).map
    (fun t => (t.reg 0, t.I)) = some (0xAB, 0x301) ∧
    (after (under wrapping (State.reset.setI 0xFFE)) 0xF265).map (fun t => (t.reg 2, t.I)) =
    some (0xF0, 0x1001) := by decide

/-- DRW-2, DRW-5. -/
theorem test_drw : (after (((regs [(0, 0x3C)]).writeBytes [(0x300, 0xFF)]).setI 0x300) 0xD011).map
    (fun t => (t.row 0, t.reg VF)) = some (0xF00000000000000F, 0) ∧
    (after (regs [(0xF, 1)]) 0xD010).map (·.reg VF) = some 0 := by decide

/-- DRW-8: one row collides, and DRW-4: wrapping to row 0. -/
theorem test_drw_rows : (after ((State.reset.writeBytes [(0x300, 0x80), (0x301, 0x80)]).setI 0x300 |>.setDisplay
    (State.reset.DISP.set 1 0x8000000000000000)) 0xD012).map (fun t => (t.row 0, t.row 1, t.reg VF)) =
    some (0x8000000000000000, 0, 1) ∧
    (after (((regs [(1, 0x1F)]).writeBytes [(0x300, 0x80), (0x301, 0x80)]).setI 0x300) 0xD012).map
    (fun t => (t.row 31, t.row 0)) = some (0x8000000000000000, 0x8000000000000000) := by decide

/-- CMP-5, CMP-7, CMP-13: both forms of the mask. -/
theorem test_compose : compose 0 0xFF 57 = (0x800000000000007F, false) ∧ spriteMaskSplit 0x81 60 = 0x1000000000000008 ∧
    compose 1 0x80 63 = (0, true) := by decide

/-- KT-1, KT-3. -/
theorem test_skp : (after (regs [(0, 3)]) 0xE09E 0x0008).map (·.pc) = some 0x204 ∧
    (after (regs [(0, 0x13)]) 0xE09E 0xFFFF).map (·.pc) = some 0x202 := by decide

/-- KT-4, KT-5. -/
theorem test_sknp : (after (regs [(0, 3)]) 0xE0A1 0x0000).map (·.pc) = some 0x204 ∧
    (after (regs [(0, 0x13)]) 0xE0A1 0xFFFF).map (·.pc) = some 0x204 := by decide

/-- KT-6, KT-9. -/
theorem test_ldVxK : (after (regs [(5, 0x77)]) 0xF50A 0x0000).map (fun t => (t.pc, t.reg 5, t.result)) =
    some (0x200, 0x77, some .ok) ∧ (after State.reset 0xF50A 0x8010).map (·.reg 5) = some 4 := by decide

/-- KT-10, KT-11, KT-12. -/
theorem test_ldVxDT : (after (State.reset.setDT 0x2A) 0xF307).map (fun t => (t.reg 3, t.DT)) = some (0x2A, 0x2A) := by
  decide
theorem test_ldDTVx : (after (regs [(3, 0x3C)]) 0xF315).map (·.DT) = some 0x3C := by decide
theorem test_ldSTVx : (after (regs [(3, 0x10)]) 0xF318).map (·.ST) = some 0x10 := by decide

/-- RST-2: an image one byte too long, on the smallest memory R7 allows. -/
theorem test_load_error : construct { Config.default with memSize := 0x202 } [1, 2, 3] = .loadError := by decide

/-! ## Witnesses: a state and operands that meet the hypotheses of each statement that has some, clause by clause -/

/-- The smallest memory R7 allows. -/
abbrev smallest : Config := { Config.default with memSize := 0x202 }

theorem witness_ConstructionMeetsInvariant : Config.default.wf ∧ construct Config.default [] = .loadOk State.reset ∧
    smallest.wf ∧ ∃ s, construct smallest [0x12, 0x00] = .loadOk s := ⟨by decide, by decide, by decide, _, rfl⟩

theorem witness_ConstructionFollowsImage : Config.default.wf ∧
    (List.replicate 3584 (0 : Byte)).length ≤ Config.default.memSize - 0x200 ∧
    Config.default.memSize - 0x200 < (List.replicate 3585 (0 : Byte)).length := by
  refine ⟨by decide, ?_, ?_⟩ <;> rw [List.length_replicate] <;> decide

theorem witness_ResetDiscardsLiveMachine :
    (∃ s : State, s.pending = [.reset [0x12]] ∧ ∃ u, construct s.cfg [0x12] = .loadOk u) ∧
    (∃ s : State, s.pending = [.reset [1, 2, 3]] ∧ construct s.cfg [1, 2, 3] = .loadError) :=
  ⟨⟨{ State.reset with pending := [.reset [0x12]] }, rfl, _, rfl⟩,
    ⟨{ State.reset with cfg := smallest, pending := [.reset [1, 2, 3]] }, rfl, rfl⟩⟩

theorem witness_TickDecrementsTimers : ∃ s : State, s.pending = [.tick] ∧ s.DT = 0 ∧ s.ST = 0xFF :=
  ⟨{ State.reset with pending := [.tick], ST := 0xFF }, rfl, rfl, rfl⟩

theorem witness_ReadChangesNothing : ∃ s : State, s.pending = [.read, .tick] ∧ s.cfg.memSize - 1 < s.cfg.memSize :=
  ⟨{ State.reset with pending := [.read, .tick] }, rfl, by decide⟩

theorem witness_ConfigurationIsFixed : ∃ t, step State.reset = .next t := ⟨_, rfl⟩

/-- A full stack and a written font byte. -/
theorem witness_StepKeepsInvariant : ∃ s t : State, s.SP = 16 ∧ s.Inv ∧ step s = .next t :=
  ⟨{ State.reset with SP := 16, M := [(0x000, 0x00)] }, _, rfl,
    ⟨by decide, by decide, by decide, by decide, by decide⟩, rfl⟩

/-- With nothing pending and with a pending cycle, at the last word of memory. -/
theorem witness_StepRunsDecodedInstruction : ∃ s : State, s.halted = none ∧ s.pc.toNat + 2 = s.cfg.memSize ∧
    decode s.cfg.strictDecode (s.readByte s.pc.toNat ++ s.readByte (s.pc.toNat + 1)) = .ok (.jp 0x200) ∧
    s.pending = [] ∧ ({ s with pending := [.cycle 1 2] } : State).pending = .cycle 1 2 :: [] :=
  ⟨{ State.reset with pc := 0xFFE, M := [(0xFFE, 0x12)] }, rfl, rfl, by decide, rfl, rfl⟩

theorem witness_FetchIsBigEndianAndChecked :
    (∃ s : State, s.pc.toNat + 1 < s.cfg.memSize ∧ s.pc.toNat + 2 = s.cfg.memSize) ∧
    (∃ s : State, s.cfg.memSize = s.pc.toNat + 1 ∧ s.halted = none) :=
  ⟨⟨{ State.reset with pc := 0xFFE }, by decide, rfl⟩, ⟨{ State.reset with pc := 0xFFF }, rfl, rfl⟩⟩

theorem witness_DecodeErrorAdvancesOnlyPc : State.reset.halted = none ∧ State.reset.fetchWord = some 0x0000 ∧
    decode State.reset.cfg.strictDecode 0x0000 = .error .unknownKey0 := by decide

theorem witness_EveryCycleReturnsOneResult : State.reset.halted = none ∧
    ({ State.reset with halted := some .stackOverflow } : State).halted = some .stackOverflow := ⟨rfl, rfl⟩

/-- A halted machine with a TICK, with a READ, and with nothing pending. -/
theorem witness_HaltedLatchHolds :
    (∃ s : State, s.halted = some .stackUnderflow ∧ s.pending = [.tick]) ∧
    (∃ s : State, s.halted = some .memoryOutOfRange ∧ s.pending = [.read]) ∧
    (∃ s t : State, s.halted = some .stackOverflow ∧ step s = .next t ∧
      ∀ image rest, s.pending ≠ .reset image :: rest) :=
  ⟨⟨{ State.reset with halted := some .stackUnderflow, pending := [.tick] }, rfl, rfl⟩,
    ⟨{ State.reset with halted := some .memoryOutOfRange, pending := [.read] }, rfl, rfl⟩,
    ⟨{ State.reset with halted := some .stackOverflow }, _, rfl, rfl, fun _ _ h => by cases h⟩⟩

/-- The fetch's error, an instruction's error (RET with an empty stack) and a decode error. -/
theorem witness_ErrorsArePrecise :
    (∃ s t : State, s.halted = none ∧ s.cycle 0 0 = .next t ∧ t.halted = some .fetchOutOfBounds) ∧
    (∃ s t : State, s.halted = none ∧ s.cycle 0 0 = .next t ∧ t.halted = some .stackUnderflow) ∧
    (∃ s t : State, s.halted = none ∧ s.cycle 0 0 = .next t ∧ t.result = some (.decodeError 0 0x200)) :=
  ⟨⟨{ State.reset with pc := 0xFFF }, _, rfl, rfl, rfl⟩,
    ⟨{ State.reset with M := [(0x201, 0xEE)] }, _, rfl, rfl, rfl⟩, ⟨State.reset, _, rfl, rfl, rfl⟩⟩

/-- One instruction for each of the three kinds. -/
theorem witness_ErrorKindsByInstruction :
    (∃ t, State.reset.halted = none ∧ exec (.ret 0) State.reset = .next t ∧ t.halted ≠ none) ∧
    (∃ t, exec (.call 0x200) { State.reset with SP := 16 } = .next t ∧ t.halted ≠ none) ∧
    (∃ t, exec (.ldB 0) { State.reset with I := 0xFFE } = .next t ∧ t.halted ≠ none) :=
  ⟨⟨_, rfl, rfl, by decide⟩, ⟨_, rfl, by decide⟩, ⟨_, rfl, by decide⟩⟩

theorem witness_PcAfterInstruction : ∃ t, State.reset.halted = none ∧ exec (.seImm 0 0) State.reset = .next t ∧
    t.halted = none := ⟨_, rfl, rfl, rfl⟩

/-- A completing and a raising instruction. -/
theorem witness_InstructionsWriteOnlyTheirState :
    (∃ t, exec (.loadRegs 15) State.reset = .next t ∧ State.reset.halted = none ∧ t.halted = none) ∧
    (∃ t, exec (.ret 0) State.reset = .next t ∧ t.halted ≠ none) := ⟨⟨_, rfl, rfl, rfl⟩, ⟨_, rfl, by decide⟩⟩

/-- ADD Vx, Vy meets the hypotheses of all four clauses. -/
theorem witness_ReadersOfDisplayKeysRandomSound : ∃ t, exec (.addReg 0 1) State.reset = .next t ∧
    (∀ x y n, Instr.addReg 0 1 ≠ .drw x y n) ∧ (∀ u, Instr.addReg 0 1 ≠ .cls u) ∧
    (∀ x, Instr.addReg 0 1 ≠ .skp x) ∧ (∀ x, Instr.addReg 0 1 ≠ .sknp x) ∧ (∀ x, Instr.addReg 0 1 ≠ .ldVxK x) ∧
    (∀ x kk, Instr.addReg 0 1 ≠ .rnd x kk) ∧ (∀ x, Instr.addReg 0 1 ≠ .ldSTVx x) := by
  refine ⟨_, rfl, ?_, ?_, ?_, ?_, ?_, ?_, ?_⟩ <;> intros <;> exact Instr.noConfusion

theorem witness_DecodeOfEncode : (Instr.seReg 15 15 0xF).wf false = true ∧ (Instr.drw 15 0 15).wf true = true := by
  decide

theorem witness_EncodeOfDecode : decode false 0x5121 = .ok (.seReg 1 2 1) ∧ decode true 0xDFFF = .ok (.drw 15 15 15) := by
  decide

theorem witness_ReturnPopsStack : (State.reset.push 0x202).SP = 1 ∧ (State.reset.push 0x202).SP ≠ 0 ∧
    State.reset.SP = 0 := by decide

/-- The first and the last legal call, and the full stack. -/
theorem witness_CallPushesReturnAddress :
    (State.reset.SP < State.reset.cfg.stackDepth ∧ State.reset.STACK.length = State.reset.cfg.stackDepth) ∧
    (∃ s : State, s.SP = 15 ∧ s.SP < s.cfg.stackDepth ∧ s.STACK.length = s.cfg.stackDepth) ∧
    (∃ s : State, s.SP = s.cfg.stackDepth ∧ s.Inv) :=
  ⟨by decide, ⟨{ State.reset with SP := 15 }, rfl, by decide, rfl⟩,
    ⟨{ State.reset with SP := 16 }, rfl, ⟨by decide, by decide, by decide, by decide, by decide⟩⟩⟩

theorem witness_CallThenReturnRestores : ∃ s : State, s.SP = 15 ∧ s.SP < s.cfg.stackDepth ∧
    s.STACK.length = s.cfg.stackDepth := ⟨{ State.reset with SP := 15 }, rfl, by decide, rfl⟩

/-- A block that ends at the last byte under `Fail`, and one past the end under `Wrap`, with its last address. -/
theorem witness_StoreBcdWritesDigits :
    (∃ s : State, s.cfg.wf ∧ s.accessible 3 ∧ s.cfg.boundsPolicy = .fail ∧
      effectiveAddr s.cfg (s.I.toNat + 2) = .ok 0xFFF) ∧
    (∃ s : State, s.cfg.wf ∧ s.accessible 3 ∧ effectiveAddr s.cfg (s.I.toNat + 2) = .ok 0x000 ∧
      ∀ k, k < 3 → effectiveAddr s.cfg (s.I.toNat + k) ≠ .ok 0x001) :=
  ⟨⟨{ State.reset with I := 0xFFD }, by decide, .inr (by decide), rfl, rfl⟩,
    ⟨{ State.reset with I := 0xFFE, cfg := wrapping }, by decide, .inl rfl, rfl, by decide⟩⟩

theorem witness_StoreRegistersWritesBlock :
    (∃ s : State, s.cfg.wf ∧ s.accessible 16 ∧ s.cfg.boundsPolicy = .fail ∧
      effectiveAddr s.cfg (s.I.toNat + 15) = .ok 0xFFF) ∧
    (∃ s : State, s.cfg.wf ∧ s.accessible 16 ∧ effectiveAddr s.cfg (s.I.toNat + 15) = .ok 0x00E ∧
      ∀ k : Reg, k ≤ 15 → effectiveAddr s.cfg (s.I.toNat + k.val) ≠ .ok 0x00F) :=
  ⟨⟨{ State.reset with I := 0xFF0 }, by decide, .inr (by decide), rfl, rfl⟩,
    ⟨{ State.reset with I := 0xFFFF, cfg := wrapping }, by decide, .inl rfl, rfl, by decide⟩⟩

theorem witness_LoadRegistersReadsBlock :
    (∃ s : State, s.accessible ((14 : Reg).val + 1) ∧ effectiveAddr s.cfg (s.I.toNat + 14) = .ok 0xFFF) ∧
    (14 : Reg) < 15 :=
  ⟨⟨{ State.reset with I := 0xFF1 }, .inr (by decide), rfl⟩, by decide⟩

theorem witness_StoreThenLoadRoundTrip : ∃ s : State, s.cfg.wf ∧ s.accessible 16 ∧ (3 : Reg) ≤ 15 ∧ (14 : Reg) < 15 :=
  ⟨{ State.reset with I := 0xFF0 }, by decide, .inr (by decide), by decide, by decide⟩

/-- The out-of-range clauses of the four memory instructions, each at its boundary. -/
theorem witness_out_of_range : ∃ s : State, s.cfg.boundsPolicy = .fail ∧ s.cfg.memSize = s.I.toNat + 2 ∧
    s.cfg.memSize = s.I.toNat + (2 : Reg).val ∧ 1 ≤ (3 : Nibble).toNat ∧
    s.cfg.memSize = s.I.toNat + (3 : Nibble).toNat - 1 :=
  ⟨{ State.reset with I := 0xFFE }, rfl, rfl, by decide, by decide, by decide⟩

theorem witness_StoredWordIsFetchedNext : ∃ s : State, s.cfg.wf ∧ s.accessible ((1 : Reg).val + 1) ∧
    1 ≤ (1 : Reg).val ∧ s.I = s.pc ∧ s.pc.toNat + 1 < s.cfg.memSize :=
  ⟨{ State.reset with I := 0xFFE, pc := 0xFFE }, by decide, .inr (by decide), by decide, rfl, by decide⟩

theorem witness_CanonicalMemoryIsUnique : Memory.wf Config.defaultFont [(0x000, 0x00), (0x300, 0x01)] = true ∧
    ∀ a, Memory.read Config.defaultFont [(0x000, 0x00), (0x300, 0x01)] a =
      Memory.read Config.defaultFont [(0x000, 0x00), (0x300, 0x01)] a := ⟨by decide, fun _ => rfl⟩

/-- The last offset, with a covered and an uncovered column. -/
theorem witness_ComposeInvertsSpritePixels : 63 < 64 ∧ 7 < 8 ∧ (63 + 7) % 64 = 6 ∧ ∀ p, p < 8 → (63 + p) % 64 ≠ 7 := by
  decide

theorem witness_SplitMaskEqualsRotated : 0 < 64 ∧ 63 < 64 := by decide

/-- A pixel turned off (VF = 1), a draw that turns none off (VF = 0), and a draw of no row with `I` outside memory, all
completing. -/
theorem witness_DrawInvertsSpriteAndReportsCollision :
    (∃ s t : State, s.accessible 1 ∧ exec (.drw 0 1 1) s = .next t ∧
      s.pixel 0 0 = true ∧ t.pixel 0 0 = false) ∧
    (∃ s t : State, s.I = 0x1001 ∧ s.cfg.boundsPolicy = .fail ∧ ((0 : Nibble).toNat = 0 ∨ s.accessible 0) ∧
      ¬ s.accessible 0 ∧ exec (.drw 0 1 0) s = .next t ∧ ∀ r c, s.pixel r c = true → t.pixel r c = true) :=
  ⟨⟨{ State.reset with DISP := State.reset.DISP.set 0 0x8000000000000000 }, _, .inr (by decide), rfl, by decide,
    by decide⟩, ⟨{ State.reset with I := 0x1001 }, _, rfl, rfl, .inl rfl,
    fun h => h.elim (fun h => by cases h) (by decide), rfl, fun _ _ h => h⟩⟩

/-- A blank screen with a nonzero sprite byte at `I` (the font's first), an all-zero sprite, and a draw of no row with
`I` outside memory. -/
theorem witness_DrawTwiceRestoresScreen :
    (∃ s t : State, (0 : Reg) ≠ VF ∧ (1 : Reg) ≠ VF ∧ s.accessible 1 ∧ exec (.drw 0 1 1) s = .next t ∧
      (s.pixel 0 0 = false ∧ t.pixel 0 0 = true) ∧ (∀ r c, s.pixel r c = false) ∧ s.readByte (s.dataAddr 0) ≠ 0) ∧
    (∃ s t : State, s.accessible 2 ∧ exec (.drw 0 1 2) s = .next t ∧
      (∀ r c, t.pixel r c = true → s.pixel r c = true) ∧ ∀ j, j < 2 → s.readByte (s.dataAddr j) = 0) ∧
    (∃ s : State, s.I = 0x1001 ∧ s.cfg.boundsPolicy = .fail ∧ ((0 : Nibble).toNat = 0 ∨ s.accessible 0) ∧
      ∀ j, j < (0 : Nibble).toNat → s.readByte (s.dataAddr j) = 0) := by
  refine ⟨⟨State.reset, _, by decide, by decide, .inr (by decide), rfl, by decide, fun r c => ?_, by decide⟩,
    ⟨{ State.reset with I := 0x300 }, _, .inr (by decide), rfl, ?_, by decide⟩,
    ⟨{ State.reset with I := 0x1001 }, rfl, rfl, .inl rfl, fun _ h => absurd h (Nat.not_lt_zero _)⟩⟩
  · show (Vector.replicate 32 (0 : Row))[r].getLsbD _ = false
    simp
  · intro r c h
    have blank : (drawRows 0 0 [0, 0] (Vector.replicate 32 0)).1 = Vector.replicate 32 0 := by decide
    have key : (drawRows 0 0 [0, 0] (Vector.replicate 32 0)).1[r].getLsbD (63 - c.val) = true := h
    rw [blank] at key
    simp at key

theorem witness_SpriteStraddlesRightEdge : 3 < 4 ∧ 4 ≤ 4 ∧ 59 < 60 := by decide

theorem witness_WaitForKeyTakesLowest : (∃ s : State, s.KEYS ≠ 0) ∧ (∃ s : State, s.KEYS = 0) :=
  ⟨⟨{ State.reset with KEYS := 0x8000 }, by decide⟩, ⟨State.reset, rfl⟩⟩

/-- A self-loop at the last word of memory. -/
theorem witness_SelfLoopIsFixedPoint : ∃ s : State, s.halted = none ∧ s.selfLoop :=
  ⟨{ State.reset with pc := 0xFFE, M := [(0xFFE, 0x1F), (0xFFF, 0xFE)] }, rfl, by decide, 0xFFE, by decide, by decide⟩

theorem witness_WaitHoldsUntilKey : ∃ s : State, s.halted = none ∧
    s.fetchWord = some (0xF#4 ++ (5 : Reg).nibble ++ 0x0A#8) ∧ (0x8000 : Word) ≠ 0 :=
  ⟨{ State.reset with M := [(0x200, 0xF5), (0x201, 0x0A)] }, rfl, by decide, by decide⟩

theorem witness_SkipsOnRegisters : (1 : Nibble) ≠ 0 ∧ decode true 0x5121 = .error .keylessBits ∧
    decode true 0x912F = .error .keylessBits := by decide

/-- LD V5, K at pc and another keypad value latched before: the step answers a next state. -/
theorem witness_KeypadIsNotHeldBetweenCycles : ∃ s t : State, s.fetchWord = some 0xF50A ∧ s.KEYS ≠ 0x0001 ∧
    step s = .next t :=
  ⟨{ State.reset with M := [(0x200, 0xF5), (0x201, 0x0A)] }, _, by decide, by decide, rfl⟩

/-- No TICK before the cycle, and 300 of them with both timers running. -/
theorem witness_PendingTicksRunBeforeCycle :
    (∃ s : State, s.pending = List.replicate 0 .tick ++ .cycle 1 2 :: []) ∧
    (∃ s : State, s.pending = List.replicate 300 .tick ++ .cycle 0 0 :: [.read] ∧ s.DT = 0xFF ∧ s.ST = 1) :=
  ⟨⟨{ State.reset with pending := [.cycle 1 2] }, rfl⟩,
    ⟨{ State.reset with pending := List.replicate 300 .tick ++ .cycle 0 0 :: [.read], DT := 0xFF, ST := 1 }, rfl, rfl, rfl⟩⟩

/-- Nothing pending, both timers running, LD V0, DT at pc. -/
theorem witness_FreeTicksInterleaveWithCycles : ∃ s : State, s.pending = [] ∧ s.DT = 0x3C ∧ s.ST = 0xFF ∧
    s.fetchWord = some 0xF007 :=
  ⟨{ State.reset with DT := 0x3C, ST := 0xFF, M := [(0x200, 0xF0), (0x201, 0x07)] }, rfl, rfl, rfl, by decide⟩

end Sys2Proof.Tests
end

section
/-! PROOFS. The rules of the state's operations that the state family's proofs share: what each update leaves unchanged,
what keeps the invariant, and the equations of one cycle and one step (10_state.md R27, R42, R50). -/

namespace Sys2Proof.Machine

variable {s t u : State} {i : Instr}

/-! ## Frames: how they compose, and one per update -/

theorem Part.same_trans {p : Part} (hst : p.same s t) (htu : p.same t u) : p.same s u := by
  cases p <;> simp_all [Part.same]

/-- Two changes one after another touch no part outside either list. -/
theorem Frame.andThen {l l₁ l₂ : List Part} (hst : Frame s t l₁) (htu : Frame t u l₂) (hl : l₁ ++ l₂ ⊆ l) :
    Frame s u l := fun p hp =>
  Part.same_trans (hst p fun h => hp (hl (List.mem_append_left _ h)))
    (htu p fun h => hp (hl (List.mem_append_right _ h)))

theorem Frame.mono {l l₁ : List Part} (hst : Frame s t l₁) (hl : l₁ ⊆ l) : Frame s t l :=
  fun p hp => hst p fun h => hp (hl h)

variable (s)

theorem frame_setReg (x : Reg) (v : Byte) : Frame s (s.setReg x v) [.regs] := by
  intro p hp; cases p <;> simp_all [Part.same]

theorem frame_setFlagged (x : Reg) (f : Flagged) : Frame s (s.setFlagged x f) [.regs] := by
  intro p hp; cases p <;> simp_all [Part.same]

theorem frame_loadRegBlock (bytes : List Byte) : Frame s (s.loadRegBlock bytes) [.regs] := by
  intro p hp; cases p <;> simp_all [Part.same]

theorem frame_setPc (v : Word) : Frame s (s.setPc v) [.pc] := by
  intro p hp; cases p <;> simp_all [Part.same]

theorem frame_skipIf (c : Bool) : Frame s (s.skipIf c) [.pc] := by
  intro p hp; cases p <;> simp_all [Part.same]

theorem frame_setI (v : Word) : Frame s (s.setI v) [.index] := by
  intro p hp; cases p <;> simp_all [Part.same]

theorem frame_push (v : Word) : Frame s (s.push v) [.stack] := by
  intro p hp; cases p <;> simp_all [Part.same]

theorem frame_pop : Frame s s.pop [.stack] := by
  intro p hp; cases p <;> simp_all [Part.same]

theorem frame_setDT (v : Byte) : Frame s (s.setDT v) [.delayTimer] := by
  intro p hp; cases p <;> simp_all [Part.same]

theorem frame_setST (v : Byte) : Frame s (s.setST v) [.soundTimer] := by
  intro p hp; cases p <;> simp_all [Part.same]

theorem frame_writeBytes (cells : List Host.Cell) : Frame s (s.writeBytes cells) [.memory] := by
  intro p hp; cases p <;> simp_all [Part.same]

theorem frame_setDisplay (d : Vector Row 32) : Frame s (s.setDisplay d) [.display] := by
  intro p hp; cases p <;> simp_all [Part.same]

/-- Latching an error and returning its result changes nothing else (R259). -/
theorem frame_raised (k : ErrorKind) (r : CycleResult) :
    Frame s { s with halted := some k, result := some r } [.error] := by
  intro p hp; cases p <;> simp_all [Part.same, State.reg, State.row, readByte_eq]

/-- The host's list of operations is no part of the machine's own state (R50). -/
theorem frame_pending (rest : List HostOp) : Frame s { s with pending := rest } [.host] := by
  intro p hp; cases p <;> simp_all [Part.same, State.reg, State.row, readByte_eq]

variable {s}

/-! ## Registers a write does not name -/

theorem reg_setFlagged_other {x r : Reg} (f : Flagged) (hx : r ≠ x) (hf : r ≠ VF) :
    (s.setFlagged x f).reg r = s.reg r := by
  rw [reg_setFlagged]
  cases s.cfg.vfWriteOrder <;> simp only [if_neg hx, if_neg hf]

theorem reg_loadRegBlock_beyond {bytes : List Byte} {r : Reg} (h : bytes.length ≤ r.val) :
    (s.loadRegBlock bytes).reg r = s.reg r := by
  rw [reg_loadRegBlock, List.getElem?_eq_none h, Option.getD_none]

/-! ## The instructions with more than one outcome -/

/-- Everything RET can do (R140). -/
theorem execRet_cases {u : Nibble} (h : execRet u s = .next t) :
    (s.SP = 0 ∧ t = { s with halted := some .stackUnderflow,
                             result := some (.stackUnderflow s.ipc (encode (.ret u))) }) ∨
    (s.SP ≠ 0 ∧ t = s.pop.setPc (s.stackEntry (s.SP - 1))) := by
  unfold execRet at h
  split at h
  · cases h; exact .inl ⟨‹_›, rfl⟩
  · cases h; exact .inr ⟨‹_›, rfl⟩

/-- Everything CALL can do (R142). -/
theorem execCall_cases {nnn : Addr12} (h : execCall nnn s = .next t) :
    (s.SP = s.cfg.stackDepth ∧ t = { s with halted := some .stackOverflow,
                                            result := some (.stackOverflow s.ipc (encode (.call nnn))) }) ∨
    (s.SP ≠ s.cfg.stackDepth ∧ t = (s.push s.pc).setPc (zextAddr nnn)) := by
  unfold execCall at h
  split at h
  · cases h; exact .inl ⟨‹_›, rfl⟩
  · cases h; exact .inr ⟨‹_›, rfl⟩

/-- Everything LD Vx, K can do (R235). -/
theorem execLdVxK_cases {x : Reg} (h : execLdVxK x s = .next t) :
    (lowestKey s.KEYS = none ∧ t = s.setPc (s.pc - 2)) ∨
    (∃ k, lowestKey s.KEYS = some k ∧ t = s.setReg x (BitVec.ofNat 8 k)) := by
  unfold execLdVxK at h
  split at h
  · cases h; exact .inl ⟨‹_›, rfl⟩
  · cases h; exact .inr ⟨_, ‹_›, rfl⟩

theorem execLdVxK_none {x : Reg} (hk : lowestKey s.KEYS = none) : execLdVxK x s = .next (s.setPc (s.pc - 2)) := by
  unfold execLdVxK
  rw [hk]

theorem execLdVxK_some {x : Reg} {k : Nat} (hk : lowestKey s.KEYS = some k) :
    execLdVxK x s = .next (s.setReg x (BitVec.ofNat 8 k)) := by
  unfold execLdVxK
  rw [hk]

/-! ## The equations of a cycle and of a step -/

theorem cycle_halted {k : ErrorKind} (hs : s.halted = some k) (keys : Word) (rand : Byte) :
    s.cycle keys rand = .next { s with result := some (.halted k) } := by
  unfold State.cycle
  rw [hs]

theorem cycle_fetchOutOfBounds (hs : s.halted = none) (hf : s.fetchWord = none) (keys : Word) (rand : Byte) :
    s.cycle keys rand =
      .next { s with halted := some .fetchOutOfBounds, result := some (.fetchOutOfBounds s.pc) } := by
  unfold State.cycle
  rw [hs, hf]
  rfl

theorem cycle_decodeError {w : Word} {e : Reject} (hs : s.halted = none) (hf : s.fetchWord = some w)
    (hd : decode s.cfg.strictDecode w = .error e) (keys : Word) (rand : Byte) :
    s.cycle keys rand = .next { s with pc := s.pc + 2, result := some (.decodeError w s.pc) } := by
  unfold State.cycle
  rw [hs, hf]
  simp only [hd]

/-- With nothing pending: a free number of ticks and a cycle on free inputs (R271, R34). -/
theorem step_free (hp : s.pending = []) :
    step s = (({ s with draws := s.draws + 1 } : State).ticks (Config.freeTicks s.draws)).cycle
      (Config.freeKeys s.draws) (Config.freeRand s.draws) := by
  unfold step State.nextOp
  rw [hp]

/-- With an operation pending: that operation, taken off the list (R50). -/
theorem step_pending {op : HostOp} {rest : List HostOp} (hp : s.pending = op :: rest) :
    step s = ({ s with pending := rest } : State).hostOp op := by
  unfold step State.nextOp
  rw [hp]

/-- An image is accepted when it fits, and then copied in from the program start (R291). -/
theorem construct_loadOk {cfg : Config} {image : List Byte} (h : construct cfg image = .loadOk s) :
    image.length + progStart ≤ cfg.memSize ∧ s = (State.blank cfg).writeBytes (imageCells progStart image) := by
  unfold construct at h
  split at h
  · cases h; exact ⟨‹_›, rfl⟩
  · cases h

/-- An image's cells lie from its load address on, one per byte. -/
theorem imageCells_lt {a : Nat} {image : List Byte} {c : Host.Cell} (h : c ∈ imageCells a image) :
    c.1 < a + image.length := by
  induction image generalizing a with
  | nil => cases h
  | cons b rest ih =>
    rw [List.length_cons]
    rcases List.mem_cons.mp h with rfl | h
    · show a < _; omega
    · have := ih h; omega

/-! ## What keeps the invariant -/

/-- The invariant speaks of configuration, stack and memory alone. -/
theorem State.Inv.congr (hs : s.Inv) (h : t.cfg = s.cfg ∧ t.SP = s.SP ∧ t.STACK = s.STACK ∧ t.M = s.M) : t.Inv := by
  obtain ⟨hcfg, hSP, hSTACK, hM⟩ := h
  constructor
  · rw [hcfg]; exact hs.cfgWf
  · rw [hcfg, hSP]; exact hs.spBound
  · rw [hcfg, hSTACK]; exact hs.stackLength
  · rw [hcfg, hM]; exact hs.memoryWf
  · rw [hcfg, hM]; exact hs.memoryWithin

/-- Writing bytes inside memory (R60, R66). -/
theorem State.Inv.writeBytes {cells : List Host.Cell} (hs : s.Inv) (hc : ∀ c ∈ cells, c.1 < s.cfg.memSize) :
    (s.writeBytes cells).Inv where
  cfgWf := hs.cfgWf
  spBound := hs.spBound
  stackLength := hs.stackLength
  memoryWf := Memory.wf_writeAll cells hs.memoryWf
  memoryWithin := Memory.within_writeAll cells hs.memoryWithin hc

/-- A push onto a stack that is not full (R27). -/
theorem State.Inv.push (hs : s.Inv) (hfull : s.SP ≠ s.cfg.stackDepth) (v : Word) : (s.push v).Inv where
  cfgWf := hs.cfgWf
  spBound := Nat.lt_of_le_of_ne hs.spBound hfull
  stackLength := (List.length_set ..).trans hs.stackLength
  memoryWf := hs.memoryWf
  memoryWithin := hs.memoryWithin

theorem State.Inv.pop (hs : s.Inv) : s.pop.Inv where
  cfgWf := hs.cfgWf
  spBound := Nat.le_trans (Nat.sub_le ..) hs.spBound
  stackLength := hs.stackLength
  memoryWf := hs.memoryWf
  memoryWithin := hs.memoryWithin

theorem State.Inv.raised (hs : s.Inv) (k : ErrorKind) (r : CycleResult) :
    State.Inv { s with halted := some k, result := some r } := hs.congr ⟨rfl, rfl, rfl, rfl⟩

/-- The constructed machine before its program is copied in (R290). -/
theorem inv_blank {cfg : Config} (h : cfg.wf) : (State.blank cfg).Inv where
  cfgWf := h
  spBound := Nat.zero_le _
  stackLength := List.length_replicate
  memoryWf := rfl
  memoryWithin := rfl

/-- The constructed machine (R290, R291). -/
theorem inv_construct {cfg : Config} {image : List Byte} (hc : cfg.wf) (h : construct cfg image = .loadOk s) :
    s.Inv := by
  obtain ⟨hfit, rfl⟩ := construct_loadOk h
  refine (inv_blank hc).writeBytes fun c hmem => ?_
  have hlt : c.1 < progStart + image.length := imageCells_lt hmem
  show c.1 < cfg.memSize
  omega

/-- Every data address an instruction writes to exists (R66). -/
theorem resolved_cells_lt {base count : Nat} {addrs : List Nat} {bytes : List Byte} (hs : s.Inv)
    (h : resolve s.cfg base count = .ok addrs) {c : Host.Cell} (hc : c ∈ addrs.zip bytes) : c.1 < s.cfg.memSize := by
  obtain ⟨k, hk, hkc⟩ := List.getElem_of_mem (List.of_mem_zip hc).1
  have hpos : 0 < s.cfg.memSize := Nat.lt_of_lt_of_le (by decide) hs.cfgWf.1
  exact hkc ▸ effectiveAddr_lt hpos ((resolve_ok h).2 k hk)

end Sys2Proof.Machine
end

section
/-! PROOFS. The state family: the invariant (10_state.md R26, R27), the fixed configuration (R35), the access table
(R42), the readers of display, keypad, random byte and sound timer (R28, R32 to R34, R51), and READ (R53). -/

namespace Sys2Proof.Machine

variable {s t : State} {i : Instr}

/-! ## The invariant -/

/-- Every instruction keeps the invariant: CALL and RET move SP within the stack, LD B and LD [I] write inside memory, and
no other instruction touches what the invariant speaks of. -/
theorem inv_exec (hs : s.Inv) (h : exec i s = .next t) : t.Inv := by
  cases i with
  | call nnn =>
    rcases execCall_cases h with ⟨-, rfl⟩ | ⟨hfull, rfl⟩
    · exact hs.raised _ _
    · exact (hs.push hfull s.pc).congr (by simp)
  | ret u =>
    rcases execRet_cases h with ⟨-, rfl⟩ | ⟨-, rfl⟩
    · exact hs.raised _ _
    · exact hs.pop.congr (by simp)
  | ldB x =>
    rcases withDataAddrs_cases h with ⟨addrs, ha, rfl⟩ | ⟨a, -, rfl⟩
    · exact hs.writeBytes fun c hc => resolved_cells_lt hs ha hc
    · exact hs.raised _ _
  | storeRegs x =>
    rcases withDataAddrs_cases h with ⟨addrs, ha, rfl⟩ | ⟨a, -, rfl⟩
    · exact (hs.writeBytes fun c hc => resolved_cells_lt hs ha hc).congr ⟨rfl, rfl, rfl, rfl⟩
    · exact hs.raised _ _
  | drw x y n | loadRegs x =>
    rcases withDataAddrs_cases h with ⟨addrs, -, rfl⟩ | ⟨a, -, rfl⟩
    · exact hs.congr (by simp)
    · exact hs.raised _ _
  | ldVxK x =>
    rcases execLdVxK_cases h with ⟨-, rfl⟩ | ⟨k, -, rfl⟩
    · exact hs.congr (by simp)
    · exact hs.congr (by simp)
  | _ => cases h; exact hs.congr (by simp)

theorem inv_cycle {keys : Word} {rand : Byte} (hs : s.Inv) (h : s.cycle keys rand = .next t) : t.Inv := by
  rcases cycle_cases h with ⟨k, -, rfl⟩ | ⟨-, -, rfl⟩ | ⟨w, e, -, -, -, rfl⟩ | ⟨w, i, -, -, -, hexec⟩
  · exact hs.congr ⟨rfl, rfl, rfl, rfl⟩
  · exact hs.raised _ _
  · exact hs.congr ⟨rfl, rfl, rfl, rfl⟩
  · exact inv_exec (hs.congr (by simp)) hexec

/-- Settles O8, by the cases of a step and, in a cycle, of the instruction. -/
theorem stepKeepsInvariant : Obligations.StepKeepsInvariant := by
  intro s t hs h
  rcases step_cases h with ⟨-, hc⟩ | ⟨keys, rand, rest, -, hc⟩ | ⟨rest, -, rfl⟩ | ⟨rest, -, rfl⟩ |
    ⟨image, rest, u, -, hu, rfl⟩
  · refine inv_cycle ?_ hc
    exact hs.congr ⟨rfl, rfl, rfl, rfl⟩
  · refine inv_cycle ?_ hc
    exact hs.congr ⟨rfl, rfl, rfl, rfl⟩
  · exact hs.congr ⟨rfl, rfl, rfl, rfl⟩
  · exact hs.congr ⟨rfl, rfl, rfl, rfl⟩
  · exact (inv_construct hs.cfgWf hu).congr ⟨rfl, rfl, rfl, rfl⟩

/-- Settles O2: the blank machine meets the invariant and an accepted image is written inside memory. -/
theorem constructionMeetsInvariant : Obligations.ConstructionMeetsInvariant :=
  fun _ _ _ hcfg h => inv_construct hcfg h

/-- Settles O1: reset is the blank machine under the default parameters. -/
theorem resetMeetsInvariant : Obligations.ResetMeetsInvariant :=
  inv_blank (cfg := Config.default) (by decide)

/-! ## The access table -/

/-- An instruction raises an error, with no other effect, or it completes within its row of the access table (R42, R259). -/
theorem exec_cases (h : exec i s = .next t) :
    (∃ k r, t = { s with halted := some k, result := some r }) ∨
    (Frame s t (writtenParts i) ∧ ∀ r, ¬ writesReg i r → t.reg r = s.reg r) := by
  cases i with
  | cls u => cases h; exact .inr ⟨frame_setDisplay s _, fun _ _ => rfl⟩
  | ret u =>
    rcases execRet_cases h with ⟨-, rfl⟩ | ⟨-, rfl⟩
    · exact .inl ⟨_, _, rfl⟩
    · exact .inr ⟨(frame_pop s).andThen (frame_setPc _ _) (by simp [writtenParts]), fun _ _ => rfl⟩
  | call nnn =>
    rcases execCall_cases h with ⟨-, rfl⟩ | ⟨-, rfl⟩
    · exact .inl ⟨_, _, rfl⟩
    · exact .inr ⟨(frame_push s _).andThen (frame_setPc _ _) (by simp [writtenParts]), fun _ _ => rfl⟩
  | jp nnn | jpV0 nnn => cases h; exact .inr ⟨frame_setPc s _, fun _ _ => rfl⟩
  | seImm x kk | sneImm x kk | seReg x y u | sneReg x y u | skp x | sknp x =>
    cases h; exact .inr ⟨frame_skipIf s _, fun r _ => s.skipIf_reg _ r⟩
  | ldImm x kk | addImm x kk | ldReg x y | orReg x y | andReg x y | xorReg x y | rnd x kk | ldVxDT x =>
    cases h; exact .inr ⟨frame_setReg s _ _, fun _ hr => reg_setReg_other s _ hr⟩
  | addReg x y | subReg x y | shr x y | subnReg x y | shl x y =>
    cases h
    exact .inr ⟨frame_setFlagged s _ _, fun _ hr => reg_setFlagged_other _ (not_or.mp hr).1 (not_or.mp hr).2⟩
  | ldI nnn | addI x | ldF x => cases h; exact .inr ⟨frame_setI s _, fun _ _ => rfl⟩
  | ldVxK x =>
    rcases execLdVxK_cases h with ⟨-, rfl⟩ | ⟨k, -, rfl⟩
    · exact .inr ⟨(frame_setPc s _).mono (by simp [writtenParts]), fun _ _ => rfl⟩
    · exact .inr ⟨(frame_setReg s _ _).mono (by simp [writtenParts]), fun _ hr => reg_setReg_other s _ hr⟩
  | ldDTVx x => cases h; exact .inr ⟨frame_setDT s _, fun _ _ => rfl⟩
  | ldSTVx x => cases h; exact .inr ⟨frame_setST s _, fun _ _ => rfl⟩
  | drw x y n =>
    rcases withDataAddrs_cases h with ⟨addrs, -, rfl⟩ | ⟨a, -, rfl⟩
    · exact .inr ⟨(frame_setDisplay s _).andThen (frame_setReg _ _ _) (by simp [writtenParts]),
        fun _ hr => reg_setReg_other _ _ hr⟩
    · exact .inl ⟨_, _, rfl⟩
  | ldB x =>
    rcases withDataAddrs_cases h with ⟨addrs, -, rfl⟩ | ⟨a, -, rfl⟩
    · exact .inr ⟨frame_writeBytes s _, fun _ _ => rfl⟩
    · exact .inl ⟨_, _, rfl⟩
  | storeRegs x =>
    rcases withDataAddrs_cases h with ⟨addrs, -, rfl⟩ | ⟨a, -, rfl⟩
    · exact .inr ⟨(frame_writeBytes s _).andThen (frame_setI _ _) (by simp [writtenParts]), fun _ _ => rfl⟩
    · exact .inl ⟨_, _, rfl⟩
  | loadRegs x =>
    rcases withDataAddrs_cases h with ⟨addrs, ha, rfl⟩ | ⟨a, -, rfl⟩
    · refine .inr ⟨(frame_loadRegBlock s _).andThen (frame_setI _ _) (by simp [writtenParts]), fun r hr => ?_⟩
      refine (State.setI_reg ..).trans (reg_loadRegBlock_beyond ?_)
      rw [List.length_map, (resolve_ok ha).1]
      exact Nat.lt_of_not_le hr
    · exact .inl ⟨_, _, rfl⟩

theorem error_not_mem_writtenParts (i : Instr) : Part.error ∉ writtenParts i := by
  cases i <;> simp [writtenParts]

theorem inputs_not_mem_writtenParts (i : Instr) : Part.inputs ∉ writtenParts i := by
  cases i <;> simp [writtenParts]

/-- Settles O17: an instruction that completes leaves the latch as it was, so the latch tells the two cases apart. -/
theorem instructionsWriteOnlyTheirState : Obligations.InstructionsWriteOnlyTheirState := by
  intro i s t hs h
  rcases exec_cases h with ⟨k, r, rfl⟩ | hcompletes
  · exact ⟨fun hnone => absurd hnone (Option.some_ne_none k), fun _ => frame_raised s k r⟩
  · have hlatch : t.halted = none := (hcompletes.1 .error (error_not_mem_writtenParts i)).1.trans hs
    exact ⟨fun _ => hcompletes, fun hsome => absurd hlatch hsome⟩

/-! ## The configuration -/

theorem cfg_exec (h : exec i s = .next t) : t.cfg = s.cfg := by
  rcases exec_cases h with ⟨k, r, rfl⟩ | ⟨hframe, -⟩
  · rfl
  · exact (hframe .inputs (inputs_not_mem_writtenParts i)).1

theorem cfg_cycle {keys : Word} {rand : Byte} (h : s.cycle keys rand = .next t) : t.cfg = s.cfg := by
  rcases cycle_cases h with ⟨k, -, rfl⟩ | ⟨-, -, rfl⟩ | ⟨w, e, -, -, -, rfl⟩ | ⟨w, i, -, -, -, hexec⟩
  · rfl
  · rfl
  · rfl
  · exact (cfg_exec hexec).trans (s.enter_cfg keys rand)

theorem cfg_construct {cfg : Config} {image : List Byte} (h : construct cfg image = .loadOk s) : s.cfg = cfg := by
  obtain ⟨-, rfl⟩ := construct_loadOk h
  rfl

/-- Settles O7, by the cases of a step; RESET constructs the new machine under the old parameters. -/
theorem configurationIsFixed : Obligations.ConfigurationIsFixed := by
  intro s t h
  rcases step_cases h with ⟨-, hc⟩ | ⟨keys, rand, rest, -, hc⟩ | ⟨rest, -, rfl⟩ | ⟨rest, -, rfl⟩ |
    ⟨image, rest, u, -, hu, rfl⟩
  · have hcfg := cfg_cycle hc
    exact hcfg
  · have hcfg := cfg_cycle hc
    exact hcfg
  · rfl
  · rfl
  · have hcfg := cfg_construct hu
    exact hcfg

/-! ## The readers of display, keypad, random byte and sound timer

Two runs that differ in these four fields are compared by mapping each field: the second run is the first one mapped. -/

/-- The state with display, keypad, random byte and sound timer each put through a function. -/
def State.mapDevices (fd : Vector Row 32 → Vector Row 32) (fk : Word → Word) (fr fs : Byte → Byte) (s : State) : State :=
  { s with DISP := fd s.DISP, KEYS := fk s.KEYS, rand := fr s.rand, ST := fs s.ST }

section Devices

variable {fd : Vector Row 32 → Vector Row 32} {fk : Word → Word} {fr fs : Byte → Byte}

@[simp] theorem mapDevices_cfg : (s.mapDevices fd fk fr fs).cfg = s.cfg := rfl

@[simp] theorem mapDevices_I : (s.mapDevices fd fk fr fs).I = s.I := rfl

@[simp] theorem mapDevices_readByte : (s.mapDevices fd fk fr fs).readByte = s.readByte := rfl

@[simp] theorem mapDevices_setI (v : Word) :
    (s.mapDevices fd fk fr fs).setI v = (s.setI v).mapDevices fd fk fr fs := rfl

@[simp] theorem mapDevices_loadRegBlock (bytes : List Byte) :
    (s.mapDevices fd fk fr fs).loadRegBlock bytes = (s.loadRegBlock bytes).mapDevices fd fk fr fs := by
  simp only [State.loadRegBlock, State.mapDevices, State.reg]

theorem mapDevices_skipIf (c : Bool) :
    (s.mapDevices fd fk fr fs).skipIf c = (s.skipIf c).mapDevices fd fk fr fs := by
  cases c <;> rfl

theorem mapDevices_setFlagged (x : Reg) (f : Flagged) :
    (s.mapDevices fd fk fr fs).setFlagged x f = (s.setFlagged x f).mapDevices fd fk fr fs := by
  unfold State.setFlagged
  rw [mapDevices_cfg]
  cases s.cfg.vfWriteOrder <;> rfl

/-- Data addresses depend on none of the four, so an access whose effect commutes with the map does too. -/
theorem mapDevices_withDataAddrs {w : Word} {count : Nat} {k k' : List Nat → State}
    (h : s.withDataAddrs w count k = .next t) (hk : ∀ addrs, k' addrs = (k addrs).mapDevices fd fk fr fs) :
    (s.mapDevices fd fk fr fs).withDataAddrs w count k' = .next (t.mapDevices fd fk fr fs) := by
  unfold State.withDataAddrs
  rcases withDataAddrs_cases h with ⟨addrs, ha, rfl⟩ | ⟨a, ha, rfl⟩
  · simp only [mapDevices_cfg, mapDevices_I, ha, hk]
  · simp only [mapDevices_cfg, mapDevices_I, ha]
    rfl

/-- An instruction commutes with the map when each field it reads or overwrites is left alone. -/
theorem exec_mapDevices (h : exec i s = .next t)
    (hd : fd = id ∨ (∀ x y n, i ≠ .drw x y n) ∧ ∀ u, i ≠ .cls u)
    (hk : fk = id ∨ (∀ x, i ≠ .skp x) ∧ (∀ x, i ≠ .sknp x) ∧ ∀ x, i ≠ .ldVxK x)
    (hr : fr = id ∨ ∀ x kk, i ≠ .rnd x kk)
    (hs : fs = id ∨ ∀ x, i ≠ .ldSTVx x) :
    exec i (s.mapDevices fd fk fr fs) = .next (t.mapDevices fd fk fr fs) := by
  cases i with
  | cls u =>
    obtain rfl : fd = id := hd.resolve_right fun ⟨_, hcls⟩ => hcls u rfl
    cases h; rfl
  | drw x y n =>
    obtain rfl : fd = id := hd.resolve_right fun ⟨hdrw, _⟩ => hdrw x y n rfl
    exact mapDevices_withDataAddrs h fun _ => rfl
  | skp x =>
    obtain rfl : fk = id := hk.resolve_right fun ⟨hskp, _, _⟩ => hskp x rfl
    cases h; exact congrArg Host.Outcome.next (mapDevices_skipIf _)
  | sknp x =>
    obtain rfl : fk = id := hk.resolve_right fun ⟨_, hsknp, _⟩ => hsknp x rfl
    cases h; exact congrArg Host.Outcome.next (mapDevices_skipIf _)
  | ldVxK x =>
    obtain rfl : fk = id := hk.resolve_right fun ⟨_, _, hldK⟩ => hldK x rfl
    rcases execLdVxK_cases h with ⟨hnone, rfl⟩ | ⟨k, hsome, rfl⟩
    · exact execLdVxK_none (s := s.mapDevices fd id fr fs) hnone
    · exact execLdVxK_some (s := s.mapDevices fd id fr fs) hsome
  | rnd x kk =>
    obtain rfl : fr = id := hr.resolve_right fun hrnd => hrnd x kk rfl
    cases h; rfl
  | ldSTVx x =>
    obtain rfl : fs = id := hs.resolve_right fun hldST => hldST x rfl
    cases h; rfl
  | ret u =>
    rcases execRet_cases h with ⟨hempty, rfl⟩ | ⟨hne, rfl⟩
    · exact if_pos hempty
    · exact if_neg hne
  | call nnn =>
    rcases execCall_cases h with ⟨hfull, rfl⟩ | ⟨hne, rfl⟩
    · exact if_pos hfull
    · exact if_neg hne
  | seImm x kk | sneImm x kk | seReg x y u | sneReg x y u =>
    cases h; exact congrArg Host.Outcome.next (mapDevices_skipIf _)
  | addReg x y | subReg x y | shr x y | subnReg x y | shl x y =>
    cases h; exact congrArg Host.Outcome.next (mapDevices_setFlagged _ _)
  | ldB x | storeRegs x => exact mapDevices_withDataAddrs h fun _ => rfl
  | loadRegs x => exact mapDevices_withDataAddrs h fun _ => by simp
  | _ => cases h; rfl

end Devices

/-- Settles O18: each clause maps one of the four fields to a constant and leaves the other three alone. -/
theorem readersOfDisplayKeysRandomSound : Obligations.ReadersOfDisplayKeysRandomSound := by
  intro i s t h
  refine ⟨fun hdrw hcls d => ?_, fun hskp hsknp hldK k => ?_, fun hrnd b => ?_, fun hldST v => ?_⟩
  · exact exec_mapDevices (fd := fun _ => d) h (.inr ⟨hdrw, hcls⟩) (.inl rfl) (.inl rfl) (.inl rfl)
  · exact exec_mapDevices (fk := fun _ => k) h (.inl rfl) (.inr ⟨hskp, hsknp, hldK⟩) (.inl rfl) (.inl rfl)
  · exact exec_mapDevices (fr := fun _ => b) h (.inl rfl) (.inl rfl) (.inr hrnd) (.inl rfl)
  · exact exec_mapDevices (fs := fun _ => v) h (.inl rfl) (.inl rfl) (.inl rfl) (.inr hldST)

/-! ## The latched keypad value -/

/-- A cycle's own keypad value replaces the latched one before its handler runs (R34, R120). -/
theorem cycle_ignores_latchedKeys {keys : Word} {rand : Byte} (h : s.cycle keys rand = .next t) (k : Word) :
    ∃ l, ({ s with KEYS := k } : State).cycle keys rand = .next { t with KEYS := l } := by
  rcases cycle_cases h with ⟨e, hs, rfl⟩ | ⟨hs, hf, rfl⟩ | ⟨w, e, hs, hf, hd, rfl⟩ | ⟨w, i, hs, hf, hd, hexec⟩
  · exact ⟨k, cycle_halted (s := { s with KEYS := k }) hs keys rand⟩
  · exact ⟨k, cycle_fetchOutOfBounds (s := { s with KEYS := k }) hs hf keys rand⟩
  · exact ⟨k, cycle_decodeError (s := { s with KEYS := k }) hs hf hd keys rand⟩
  · exact ⟨t.KEYS, (cycle_run (s := { s with KEYS := k }) hs hf hd keys rand).trans hexec⟩

/-- Settles O53, by the cases of a step. -/
theorem keypadIsNotHeldBetweenCycles : Obligations.KeypadIsNotHeldBetweenCycles := by
  intro s t k h
  have free : s.pending = [] → step { s with KEYS := k } = _ := step_free (s := { s with KEYS := k })
  have next : ∀ op rest, s.pending = op :: rest → step { s with KEYS := k } = _ :=
    fun _ _ => step_pending (s := { s with KEYS := k })
  rcases step_cases h with ⟨hp, hc⟩ | ⟨keys, rand, rest, hp, hc⟩ | ⟨rest, hp, rfl⟩ | ⟨rest, hp, rfl⟩ |
    ⟨image, rest, u, hp, hu, rfl⟩
  · rw [free hp]
    exact cycle_ignores_latchedKeys hc k
  · rw [next _ _ hp]
    exact cycle_ignores_latchedKeys hc k
  · exact ⟨k, next _ _ hp⟩
  · exact ⟨k, next _ _ hp⟩
  · refine ⟨u.KEYS, (next _ _ hp).trans ?_⟩
    simp only [State.hostOp, hu]

/-! ## READ -/

theorem observe_M_length (s : State) : s.observe.M.length = s.cfg.memSize := by simp [State.observe]

theorem observe_M_getElem? {a : Nat} (h : a < s.cfg.memSize) : s.observe.M[a]? = some (s.readByte a) := by
  simp [State.observe, h]

/-- Settles O6: a READ only comes off the pending list, and the observation lists every field. -/
theorem readChangesNothing : Obligations.ReadChangesNothing := by
  intro s rest hp
  exact ⟨{ s with pending := rest }, step_pending hp, rfl, rfl, frame_pending s rest, rfl, fun _ => rfl,
    observe_M_length s, fun _ => observe_M_getElem?, fun _ => rfl, rfl, rfl, rfl, rfl, rfl, rfl, rfl⟩

end Sys2Proof.Machine
end

section
/-! PROOFS. The memory family: canonical memories that read alike are equal (20_memory.md R60, R70; assumption log
5), and a stored word is the one the next fetch reads (R76, R302). -/

namespace Sys2Proof.Machine

/-! ## Canonical memories that read alike -/

section Canonical

variable {font : Vector Byte fontLen} {m m' : Memory}

/-- In rising order the listed byte of an address is the one its only entry holds. -/
theorem Memory.mem_iff_lookup (h : m.Pairwise fun c d => c.1 < d.1) (a : Nat) (v : Byte) :
    (a, v) ∈ m ↔ m.lookup a = some v := by
  induction m with
  | nil => simp [Memory.lookup]
  | cons c rest ih =>
    obtain ⟨b, w⟩ := c
    obtain ⟨hb, hrest⟩ := List.pairwise_cons.mp h
    by_cases hab : a = b
    · subst hab
      have hnot : (a, v) ∉ rest := fun hmem => Nat.lt_irrefl a (hb _ hmem)
      simp [Memory.lookup, hnot, eq_comm]
    · simp [Memory.lookup, hab, ih hrest]

/-- Reading decides what a canonical memory lists: each byte that differs from its address's construction value. -/
theorem Memory.mem_iff_read (h : m.wf font = true) (a : Nat) (v : Byte) :
    (a, v) ∈ m ↔ v ≠ Memory.initial font a ∧ m.read font a = v := by
  obtain ⟨hrising, hlisted⟩ := Memory.wf_iff.mp h
  constructor
  · intro hmem
    refine ⟨hlisted _ hmem, ?_⟩
    rw [Memory.read, (Memory.mem_iff_lookup hrising a v).mp hmem, Option.getD_some]
  · rintro ⟨hne, hread⟩
    rw [Memory.mem_iff_lookup hrising]
    cases hl : m.lookup a with
    | none => exact absurd (by rw [← hread, Memory.read, hl, Option.getD_none]) hne
    | some w => rw [← hread, Memory.read, hl, Option.getD_some]

/-- Settles O42: equal readings give equal entries, and rising order gives them one arrangement. -/
theorem canonicalMemoryIsUnique : Obligations.CanonicalMemoryIsUnique := by
  intro font m m' h h' hread
  obtain ⟨hrising, -⟩ := Memory.wf_iff.mp h
  obtain ⟨hrising', -⟩ := Memory.wf_iff.mp h'
  have asymm : Std.Asymm fun c d : Host.Cell => c.1 < d.1 := ⟨fun _ _ => Nat.lt_asymm⟩
  refine hrising.eq_of_mem_iff hrising' fun (a, v) => ?_
  rw [Memory.mem_iff_read h, Memory.mem_iff_read h', hread]

end Canonical

/-! ## Bytes a store leaves in memory, and the fetch after it -/

variable {s : State}

/-- Registers stored to addresses that all differ read back, each at its own address (R65, R70). -/
theorem readByte_writeBytes_regs {addrs : List Nat} (hd : addrs.Nodup) (hl : addrs.length ≤ 16) {k : Reg}
    (hk : k.val < addrs.length) : (s.writeBytes (addrs.zip s.V.toList)).readByte addrs[k.val] = s.reg k := by
  have haddrs : (addrs.zip s.V.toList).map (·.1) = addrs := List.map_fst_zip (by simpa using hl)
  refine readByte_writeBytes_mem s _ (haddrs.symm ▸ hd) ?_
  refine List.mem_iff_getElem.mpr ⟨k.val, by simpa using hk, ?_⟩
  simp [State.reg]

/-- The accessible bytes of a block no longer than memory have addresses that all differ (R66). -/
theorem nodup_dataAddrs {count : Nat} (h : s.accessible count) (hm : count ≤ s.cfg.memSize) :
    ((List.range count).map s.dataAddr).Nodup :=
  List.nodup_range.map_on fun _ hj _ hk => dataAddr_inj h hm (List.mem_range.mp hj) (List.mem_range.mp hk)

/-- LD [I], Vx on accessible bytes completes and leaves each stored register at its own data address (R194). -/
theorem exec_storeRegs_stores {x : Reg} (hcfg : s.cfg.wf) (hacc : s.accessible (x.val + 1)) :
    ∃ t, exec (.storeRegs x) s = .next t ∧ t.pc = s.pc ∧ t.cfg = s.cfg ∧
      ∀ k : Reg, k ≤ x → t.readByte (s.dataAddr k.val) = s.reg k := by
  refine ⟨_, withDataAddrs_accessible hacc _ _, rfl, rfl, fun k hk => ?_⟩
  obtain ⟨hsize, -⟩ := hcfg
  have hblock : x.val + 1 ≤ s.cfg.memSize := Nat.le_trans (Nat.le_trans x.isLt (by decide)) hsize
  have hstored := readByte_writeBytes_regs (s := s) (k := k) (nodup_dataAddrs hacc hblock) (by simp)
    (by simpa using hk)
  simpa using hstored

theorem dataAddr_inside {k : Nat} (h : s.I.toNat + k < s.cfg.memSize) : s.dataAddr k = s.I.toNat + k := if_pos h

theorem fetchWord_inside (h : s.pc.toNat + 1 < s.cfg.memSize) :
    s.fetchWord = some (wordOfBytes (s.readByte s.pc.toNat) (s.readByte (s.pc.toNat + 1))) := if_pos h

/-- Settles O41: V0 and V1 go to the two addresses the fetch reads. -/
theorem storedWordIsFetchedNext : Obligations.StoredWordIsFetchedNext := by
  intro s x hcfg hacc hx hI hpc
  obtain ⟨t, hexec, htpc, htcfg, hstored⟩ := exec_storeRegs_stores hcfg hacc
  refine ⟨t, hexec, ?_⟩
  have hhigh : t.readByte s.pc.toNat = s.reg 0 := by
    have haddr : s.dataAddr 0 = s.pc.toNat := hI ▸ dataAddr_inside (by rw [hI]; omega)
    exact haddr ▸ hstored 0 (Fin.zero_le x)
  have hlow : t.readByte (s.pc.toNat + 1) = s.reg 1 := by
    have haddr : s.dataAddr 1 = s.pc.toNat + 1 := hI ▸ dataAddr_inside (by rw [hI]; omega)
    exact haddr ▸ hstored 1 hx
  rw [fetchWord_inside (by rw [htpc, htcfg]; exact hpc), htpc, hhigh, hlow, wordOfBytes]

end Sys2Proof.Machine
end

section
/-! PROOFS. The encoding family: decoder and encoder are inverse to each other (30_encoding.md R91 to R103, R106), and
the decode errors are the words the rules name (R96 to R99, R101; D7). -/

namespace Sys2Proof

variable {strict : Bool} {w : Word} {i : Instr} {op u n : Nibble} {kk : Byte}

/-! ## The words of each layout back from their fields (R92) -/

theorem encA_of_fields (hop : fieldOp w = op) : encA op (fieldNNN w) = w := by
  subst hop
  exact BitVec.extractLsb'_append_extractLsb'

/-- The top nibble and `x` are the high byte. -/
theorem fieldOp_append_fieldXBits (w : Word) : fieldOp w ++ fieldXBits w = w.extractLsb' 8 8 :=
  BitVec.extractLsb'_append_extractLsb'_eq_extractLsb' rfl

theorem encXK_of_fields (hop : fieldOp w = op) (hkk : fieldKK w = kk) : encXK op (fieldX w) kk = w := by
  subst hop hkk
  show fieldOp w ++ fieldXBits w ++ fieldKK w = w
  rw [fieldOp_append_fieldXBits]
  exact BitVec.extractLsb'_append_extractLsb'

theorem encXY_of_fields (hop : fieldOp w = op) (hn : fieldN w = n) : encXY op (fieldX w) (fieldY w) n = w := by
  subst hop hn
  show fieldOp w ++ fieldXBits w ++ fieldYBits w ++ fieldN w = w
  have hupper : w.extractLsb' 8 8 ++ fieldYBits w = w.extractLsb' 4 12 :=
    BitVec.extractLsb'_append_extractLsb'_eq_extractLsb' rfl
  rw [fieldOp_append_fieldXBits, hupper]
  exact BitVec.extractLsb'_append_extractLsb'

theorem enc0_of_fields (hop : fieldOp w = 0x0) (hkk : fieldKK w = kk) : enc0 (fieldXBits w) kk = w :=
  encXK_of_fields hop hkk

/-! ## The bits outside the key (R101) -/

theorem keyless_of_ok (hu : keylessBitsOk strict u = true) : keyless strict u i = .ok i := if_pos hu

theorem keyless_ok {j : Instr} (h : keyless strict u j = .ok i) : j = i ∧ keylessBitsOk strict u = true := by
  unfold keyless at h
  split at h
  case isTrue hu => exact ⟨Except.ok.inj h, hu⟩
  case isFalse => cases h

/-- A test that selects an instruction leaves the decode errors to the tests after it. -/
theorem error_of_ite_iff {c : Prop} [Decidable c] {rest : Except Reject Instr} :
    (∃ e, (if c then .ok i else rest) = .error e) ↔ ¬c ∧ ∃ e, rest = .error e := by
  by_cases hc : c <;> simp [hc]

theorem keyless_error_iff : (∃ e, keyless strict u i = .error e) ↔ strict = true ∧ u.toNat ≠ 0 := by
  simp [keyless, error_of_ite_iff, BitVec.toNat_eq]

/-! ## Decoding the encoder's words -/

/-- Settles O20: the decoder reads the encoder's fields back, and the key among them selects the instruction's own
slot. -/
theorem decodeOfEncode : Obligations.DecodeOfEncode := by
  intro strict i hwf
  cases i with
  | cls u | ret u =>
    simp [encode, decode, family0, fieldOp_enc0, fieldKK_enc0, fieldXBits_enc0, keyless_of_ok (u := u) hwf]
  | seReg x y u | sneReg x y u =>
    simp [encode, decode, fieldOp_encXY, fieldX_encXY, fieldY_encXY, fieldN_encXY, keyless_of_ok (u := u) hwf]
  | jp nnn | call nnn | ldI nnn | jpV0 nnn => simp [encode, decode, fieldOp_encA, fieldNNN_encA]
  | seImm x kk | sneImm x kk | ldImm x kk | addImm x kk | rnd x kk =>
    simp [encode, decode, fieldOp_encXK, fieldX_encXK, fieldKK_encXK]
  | drw x y n => simp [encode, decode, fieldOp_encXY, fieldX_encXY, fieldY_encXY, fieldN_encXY]
  | ldReg x y | orReg x y | andReg x y | xorReg x y | addReg x y | subReg x y | shr x y | subnReg x y | shl x y =>
    simp [encode, decode, family8, fieldOp_encXY, fieldX_encXY, fieldY_encXY, fieldN_encXY]
  | skp x | sknp x => simp [encode, decode, familyE, fieldOp_encXK, fieldX_encXK, fieldKK_encXK]
  | ldVxDT x | ldVxK x | ldDTVx x | ldSTVx x | addI x | ldF x | ldB x | storeRegs x | loadRegs x =>
    simp [encode, decode, familyF, fieldOp_encXK, fieldX_encXK, fieldKK_encXK]

/-! ## Encoding what the decoder reads -/

theorem encode_of_family0 (hop : fieldOp w = 0x0) (h : family0 strict w = .ok i) :
    encode i = w ∧ i.wf strict = true := by
  unfold family0 at h
  split_ifs at h with hE0 hEE <;> obtain ⟨rfl, hu⟩ := keyless_ok h
  · exact ⟨enc0_of_fields hop hE0, hu⟩
  · exact ⟨enc0_of_fields hop hEE, hu⟩

/-- On each of R97's rows the low nibble is the row's key, so the word is that of its fields. -/
theorem encode_of_family8 (hop : fieldOp w = 0x8) (h : family8 w = .ok i) : encode i = w ∧ i.wf strict = true := by
  unfold family8 at h
  split_ifs at h
  all_goals
    cases h
    exact ⟨encXY_of_fields hop ‹fieldN w = _›, rfl⟩

theorem encode_of_familyE (hop : fieldOp w = 0xE) (h : familyE w = .ok i) : encode i = w ∧ i.wf strict = true := by
  unfold familyE at h
  split_ifs at h
  all_goals
    cases h
    exact ⟨encXK_of_fields hop ‹fieldKK w = _›, rfl⟩

/-- On each of R99's rows the low byte is the row's key, so the word is that of its fields. -/
theorem encode_of_familyF (hop : fieldOp w = 0xF) (h : familyF w = .ok i) : encode i = w ∧ i.wf strict = true := by
  unfold familyF at h
  split_ifs at h
  all_goals
    cases h
    exact ⟨encXK_of_fields hop ‹fieldKK w = _›, rfl⟩

/-- The sixteen slots of the first-level dispatch (R95). -/
theorem nibble_cases : ∀ op : Nibble, op = 0x0 ∨ op = 0x1 ∨ op = 0x2 ∨ op = 0x3 ∨ op = 0x4 ∨ op = 0x5 ∨ op = 0x6 ∨
    op = 0x7 ∨ op = 0x8 ∨ op = 0x9 ∨ op = 0xA ∨ op = 0xB ∨ op = 0xC ∨ op = 0xD ∨ op = 0xE ∨ op = 0xF := by decide

/-- Settles O21: slot by slot of the first-level dispatch, the operands read are the fields of the slot's own layout. -/
theorem encodeOfDecode : Obligations.EncodeOfDecode := by
  intro strict w i h
  obtain h0 | h1 | h2 | h3 | h4 | h5 | h6 | h7 | h8 | h9 | hA | hB | hC | hD | hE | hF := nibble_cases (fieldOp w)
  · exact encode_of_family0 h0 (by simpa [decode, h0] using h)
  · obtain rfl : Instr.jp (fieldNNN w) = i := by simpa [decode, h1] using h
    exact ⟨encA_of_fields h1, rfl⟩
  · obtain rfl : Instr.call (fieldNNN w) = i := by simpa [decode, h2] using h
    exact ⟨encA_of_fields h2, rfl⟩
  · obtain rfl : Instr.seImm (fieldX w) (fieldKK w) = i := by simpa [decode, h3] using h
    exact ⟨encXK_of_fields h3 rfl, rfl⟩
  · obtain rfl : Instr.sneImm (fieldX w) (fieldKK w) = i := by simpa [decode, h4] using h
    exact ⟨encXK_of_fields h4 rfl, rfl⟩
  · obtain ⟨rfl, hu⟩ := keyless_ok (by simpa [decode, h5] using h)
    exact ⟨encXY_of_fields h5 rfl, hu⟩
  · obtain rfl : Instr.ldImm (fieldX w) (fieldKK w) = i := by simpa [decode, h6] using h
    exact ⟨encXK_of_fields h6 rfl, rfl⟩
  · obtain rfl : Instr.addImm (fieldX w) (fieldKK w) = i := by simpa [decode, h7] using h
    exact ⟨encXK_of_fields h7 rfl, rfl⟩
  · exact encode_of_family8 h8 (by simpa [decode, h8] using h)
  · obtain ⟨rfl, hu⟩ := keyless_ok (by simpa [decode, h9] using h)
    exact ⟨encXY_of_fields h9 rfl, hu⟩
  · obtain rfl : Instr.ldI (fieldNNN w) = i := by simpa [decode, hA] using h
    exact ⟨encA_of_fields hA, rfl⟩
  · obtain rfl : Instr.jpV0 (fieldNNN w) = i := by simpa [decode, hB] using h
    exact ⟨encA_of_fields hB, rfl⟩
  · obtain rfl : Instr.rnd (fieldX w) (fieldKK w) = i := by simpa [decode, hC] using h
    exact ⟨encXK_of_fields hC rfl, rfl⟩
  · obtain rfl : Instr.drw (fieldX w) (fieldY w) (fieldN w) = i := by simpa [decode, hD] using h
    exact ⟨encXY_of_fields hD rfl, rfl⟩
  · exact encode_of_familyE hE (by simpa [decode, hE] using h)
  · exact encode_of_familyF hF (by simpa [decode, hF] using h)

/-! ## The decode errors -/

theorem fieldOp_toNat (w : Word) : (fieldOp w).toNat = w.toNat / 4096 := by
  rw [fieldOp, BitVec.extractLsb'_toNat, Nat.shiftRight_eq_div_pow]
  omega

theorem fieldXBits_toNat (w : Word) : (fieldXBits w).toNat = w.toNat / 256 % 16 := by
  rw [fieldXBits, BitVec.extractLsb'_toNat, Nat.shiftRight_eq_div_pow]

theorem fieldN_toNat (w : Word) : (fieldN w).toNat = w.toNat % 16 := by
  rw [fieldN, BitVec.extractLsb'_toNat, Nat.shiftRight_zero]

theorem fieldKK_toNat (w : Word) : (fieldKK w).toNat = w.toNat % 256 := by
  rw [fieldKK, BitVec.extractLsb'_toNat, Nat.shiftRight_zero]

theorem family0_error_iff : (∃ e, family0 strict w = .error e) ↔
    (fieldKK w).toNat ∉ [0xE0, 0xEE] ∨ strict = true ∧ (fieldXBits w).toNat ≠ 0 := by
  unfold family0
  split_ifs with hE0 hEE
  · simp [keyless_error_iff, hE0]
  · simp [keyless_error_iff, hEE]
  · simp_all [BitVec.toNat_eq]

theorem family8_error_iff : (∃ e, family8 w = .error e) ↔
    (fieldN w).toNat ∉ [0x0, 0x1, 0x2, 0x3, 0x4, 0x5, 0x6, 0x7, 0xE] := by
  simp [family8, error_of_ite_iff, BitVec.toNat_eq]

theorem familyE_error_iff : (∃ e, familyE w = .error e) ↔ (fieldKK w).toNat ∉ [0x9E, 0xA1] := by
  simp [familyE, error_of_ite_iff, BitVec.toNat_eq]

theorem familyF_error_iff : (∃ e, familyF w = .error e) ↔
    (fieldKK w).toNat ∉ [0x07, 0x0A, 0x15, 0x18, 0x1E, 0x29, 0x33, 0x55, 0x65] := by
  simp [familyF, error_of_ite_iff, BitVec.toNat_eq]

/-- Settles O22: the numerals are the word's fields, a slot with no second key errs only by its keyless bits, and each
keyed family errs as its own lemma says. -/
theorem decodeErrorsExactly : Obligations.DecodeErrorsExactly := by
  intro strict w
  simp only [← fieldOp_toNat, ← fieldXBits_toNat, ← fieldN_toNat, ← fieldKK_toNat]
  obtain h0 | h1 | h2 | h3 | h4 | h5 | h6 | h7 | h8 | h9 | hA | hB | hC | hD | hE | hF := nibble_cases (fieldOp w)
  all_goals
    simp [decode, *, keyless_error_iff, family0_error_iff, family8_error_iff, familyE_error_iff, familyF_error_iff]

/-! ## Words written out from the patterns -/

/-- Settles O19: thirteen closed words, each decoded. -/
theorem sampleWordsDecode : Obligations.SampleWordsDecode := by
  unfold Obligations.SampleWordsDecode
  decide

end Sys2Proof
end

section
/-! PROOFS. The cycle family: the fetch and its check (40_cycle.md R121, R252), a word without a handler (R124), the
step that runs the fetched instruction (R120 to R123), the pc after each instruction (R126) and the self-loop (R129). -/

namespace Sys2Proof.Machine

variable {s t : State} {i : Instr}

/-! ## The fetch -/

/-- The byte at the lower address counts 256 times (R64, R121). -/
theorem toNat_wordOfBytes (hi lo : Byte) : (wordOfBytes hi lo).toNat = 256 * hi.toNat + lo.toNat := by
  rw [wordOfBytes, BitVec.toNat_append, ← Nat.shiftLeft_add_eq_or_of_lt lo.isLt, Nat.shiftLeft_eq, Nat.mul_comm]

theorem fetchWord_outside (h : s.cfg.memSize ≤ s.pc.toNat + 1) : s.fetchWord = none := if_neg (Nat.not_lt.mpr h)

/-- Settles O10: inside memory the fetch joins the two bytes, and outside it the cycle ends in the latch alone. -/
theorem fetchIsBigEndianAndChecked : Obligations.FetchIsBigEndianAndChecked := by
  intro s keys rand
  refine ⟨fun hin => ⟨_, fetchWord_inside hin, toNat_wordOfBytes _ _⟩, fun hout hs => ?_⟩
  exact ⟨_, cycle_fetchOutOfBounds hs (fetchWord_outside hout) keys rand, rfl, rfl, frame_raised s _ _⟩

/-! ## A word without a handler -/

/-- Returning a result changes no part but the error part. -/
theorem frame_result (s : State) (r : Option CycleResult) : Frame s { s with result := r } [.error] := by
  intro p hp; cases p <;> simp_all [Part.same, State.reg, State.row, readByte_eq]

/-- Settles O11: a decode error is the pc's advance and a result. -/
theorem decodeErrorAdvancesOnlyPc : Obligations.DecodeErrorAdvancesOnlyPc := by
  intro s w e keys rand hs hf hd
  refine ⟨_, cycle_decodeError hs hf hd keys rand, rfl, rfl, hs, ?_⟩
  exact (frame_setPc s (s.pc + 2)).andThen (frame_result _ _) (by simp)

/-! ## The step that runs an instruction -/

/-- A cycle runs the instruction the two bytes at pc decode to (R120 to R123). -/
theorem cycle_runs_decoded (hs : s.halted = none) (hpc : s.pc.toNat + 1 < s.cfg.memSize)
    (hd : decode s.cfg.strictDecode (s.readByte s.pc.toNat ++ s.readByte (s.pc.toNat + 1)) = .ok i)
    (keys : Word) (rand : Byte) : s.cycle keys rand = exec i (s.enter keys rand) :=
  cycle_run hs (fetchWord_inside hpc) hd keys rand

/-- Settles O9: neither free ticks, the count of draws nor the pending list reaches what the fetch reads. -/
theorem stepRunsDecodedInstruction : Obligations.StepRunsDecodedInstruction := by
  intro s i hs hpc hd
  refine ⟨fun hp => ?_, fun keys rand rest hp => ?_⟩
  · rw [step_free hp]
    exact cycle_runs_decoded (s := ({ s with draws := s.draws + 1 } : State).ticks _) hs hpc hd _ _
  · rw [step_pending hp]
    exact cycle_runs_decoded (s := { s with pending := rest }) hs hpc hd keys rand

/-! ## The pc after an instruction -/

/-- An instruction whose row of the access table has no "W" for the pc leaves the fetch's advance (R42, R126). -/
theorem pc_exec_of_not_written (h : exec i s = .next t) (hi : Part.pc ∉ writtenParts i) : t.pc = s.pc := by
  rcases exec_cases h with ⟨k, r, rfl⟩ | ⟨hframe, -⟩
  · rfl
  · exact hframe .pc hi

/-- Settles O16, by the instructions that write the pc: jumps, CALL and RET, skips and the wait for a key. -/
theorem pcAfterInstruction : Obligations.PcAfterInstruction := by
  intro i s t _ h ht
  cases i with
  | jp nnn | jpV0 nnn => cases h; rfl
  | call nnn =>
    rcases execCall_cases h with ⟨-, rfl⟩ | ⟨-, rfl⟩
    · cases ht
    · rfl
  | ret u =>
    rcases execRet_cases h with ⟨-, rfl⟩ | ⟨-, rfl⟩
    · cases ht
    · rfl
  | seImm x kk | sneImm x kk | seReg x y u | sneReg x y u | skp x | sknp x => cases h; simp [pcAfter]
  | ldVxK x =>
    rcases execLdVxK_cases h with ⟨hnone, rfl⟩ | ⟨k, hsome, rfl⟩
    · exact (if_pos ((lowestKey_none _).mp hnone)).symm
    · have hheld : s.KEYS ≠ 0 := fun h0 =>
        Option.some_ne_none k (hsome.symm.trans ((lowestKey_none _).mpr h0))
      exact (if_neg hheld).symm
  | _ => exact pc_exec_of_not_written h (by simp [writtenParts])

/-! ## The self-loop -/

/-- A jump to its own address undoes the fetch's advance: only the cycle's inputs and result stay (R129, R141). -/
theorem exec_jp_self {nnn : Addr12} (hself : zextAddr nnn = s.pc) (keys : Word) (rand : Byte) :
    exec (.jp nnn) (s.enter keys rand) = .next { s with KEYS := keys, rand := rand, result := some .ok } := by
  show Host.Outcome.next ((s.enter keys rand).setPc (zextAddr nnn)) = _
  rw [hself]
  rfl

/-- Settles O51: the cycle runs the jump, which leaves all that the observation and the self-loop speak of. -/
theorem selfLoopIsFixedPoint : Obligations.SelfLoopIsFixedPoint := by
  intro s keys rand hs hloop
  have ⟨_, nnn, hself, hf⟩ := hloop
  have hd : decode s.cfg.strictDecode (encode (.jp nnn)) = .ok (.jp nnn) := decodeOfEncode _ _ rfl
  exact ⟨_, (cycle_run hs hf hd keys rand).trans (exec_jp_self hself keys rand), rfl, rfl, rfl, hloop⟩

end Sys2Proof.Machine
end

section
/-! PROOFS. The control-flow family: the word of an instruction that is not well-formed is a decode error
(30_encoding.md R101), what RET and CALL do on each side of the stack's bounds (41_control_flow.md R140, R142, R149),
the jumps (R141, R147) and the skips (R143 to R146). -/

namespace Sys2Proof

variable {strict : Bool} {i j : Instr}

/-! ## The words of instructions that are not well-formed -/

/-- Without `STRICT_DECODE` every instruction is well-formed (R101). -/
theorem Instr.wf_lenient (i : Instr) : i.wf false = true := by cases i <;> rfl

theorem encode_injective (h : encode i = encode j) : i = j := by
  have hi : decode false (encode i) = .ok i := decodeOfEncode _ _ i.wf_lenient
  have hj : decode false (encode j) = .ok j := decodeOfEncode _ _ j.wf_lenient
  exact Except.ok.inj (hi.symm.trans (h ▸ hj))

/-- The only instruction that could be decoded from the word of `i` is `i` itself. -/
theorem decode_encode_error_of_not_wf (h : i.wf strict = false) : ∃ e, decode strict (encode i) = .error e := by
  cases hd : decode strict (encode i) with
  | error e => exact ⟨e, rfl⟩
  | ok j =>
    obtain ⟨henc, hwf⟩ := encodeOfDecode _ _ _ hd
    obtain rfl := encode_injective henc
    exact absurd hwf (Bool.eq_false_iff.mp h)

end Sys2Proof

namespace Sys2Proof.Machine

variable {s : State}

/-! ## Addresses and skips as numbers -/

theorem toNat_zextAddr (nnn : Addr12) : (zextAddr nnn).toNat = nnn.toNat :=
  BitVec.toNat_setWidth_of_le (by decide)

theorem toNat_zextByte (v : Byte) : (zextByte v).toNat = v.toNat :=
  BitVec.toNat_setWidth_of_le (by decide)

/-- A 12-bit address and a byte have a sum below 2^16 (R147). -/
theorem toNat_zextAddr_add_zextByte (nnn : Addr12) (v : Byte) :
    (zextAddr nnn + zextByte v).toNat = nnn.toNat + v.toNat := by
  rw [BitVec.toNat_add, toNat_zextAddr, toNat_zextByte]
  omega

/-- A taken skip passes over one word, mod 2^16 (R127). -/
theorem toNat_pc_skipIf (s : State) (c : Bool) :
    (s.skipIf c).pc.toNat = if c = true then (s.pc.toNat + 2) % 65536 else s.pc.toNat := by
  rw [State.skipIf_pc, apply_ite BitVec.toNat, BitVec.toNat_add]
  rfl

theorem toNat_pc_skipIf_beq (s : State) (a b : Byte) :
    (s.skipIf (a == b)).pc.toNat = if a = b then (s.pc.toNat + 2) % 65536 else s.pc.toNat := by
  simp only [toNat_pc_skipIf, beq_iff_eq]

theorem toNat_pc_skipIf_bne (s : State) (a b : Byte) :
    (s.skipIf (a != b)).pc.toNat = if a = b then s.pc.toNat else (s.pc.toNat + 2) % 65536 := by
  simp only [toNat_pc_skipIf, bne_iff_ne, ne_eq, ite_not]

/-! ## The stack -/

theorem stackEntry_push_same (h : s.SP < s.STACK.length) (v : Word) : (s.push v).stackEntry s.SP = v := by
  simp [State.stackEntry, h]

theorem stackEntry_push_other {k : Nat} (h : k ≠ s.SP) (v : Word) : (s.push v).stackEntry k = s.stackEntry k := by
  simp [State.stackEntry, List.getElem?_set_ne h.symm]

/-! ## RET and CALL on each side of the stack's bounds -/

theorem exec_ret_underflow (h : s.SP = 0) (u : Nibble) : exec (.ret u) s =
    .next { s with halted := some .stackUnderflow, result := some (.stackUnderflow s.ipc (encode (.ret u))) } :=
  if_pos h

theorem exec_ret_pop (h : s.SP ≠ 0) (u : Nibble) :
    exec (.ret u) s = .next (s.pop.setPc (s.stackEntry (s.SP - 1))) := if_neg h

theorem exec_call_overflow (h : s.SP = s.cfg.stackDepth) (nnn : Addr12) : exec (.call nnn) s =
    .next { s with halted := some .stackOverflow, result := some (.stackOverflow s.ipc (encode (.call nnn))) } :=
  if_pos h

theorem exec_call_push (h : s.SP ≠ s.cfg.stackDepth) (nnn : Addr12) :
    exec (.call nnn) s = .next ((s.push s.pc).setPc (zextAddr nnn)) := if_neg h

/-- Settles O23: on a stack that is not empty a pop and a jump, on an empty one the latch alone. -/
theorem returnPopsStack : Obligations.ReturnPopsStack := by
  intro s u
  refine ⟨decodeOfEncode false (.ret u) rfl, decodeOfEncode true (.ret 0) rfl, fun hSP => ?_, fun hSP => ?_⟩
  · exact ⟨_, exec_ret_pop hSP u, Nat.succ_pred hSP, rfl, rfl, (frame_pop s).andThen (frame_setPc _ _) (by simp)⟩
  · exact ⟨_, exec_ret_underflow hSP u, rfl, rfl, frame_raised s _ _⟩

/-- Settles O25: with room a push and a jump, on a full stack the latch alone. -/
theorem callPushesReturnAddress : Obligations.CallPushesReturnAddress := by
  intro s nnn strict
  refine ⟨decodeOfEncode strict (.call nnn) rfl, fun hroom hlen => ?_, fun hfull => ?_⟩
  · exact ⟨_, exec_call_push (Nat.ne_of_lt hroom) nnn, stackEntry_push_same (hlen ▸ hroom) _, rfl,
      toNat_zextAddr nnn, List.length_set, fun k hk => stackEntry_push_other hk _,
      (frame_push s _).andThen (frame_setPc _ _) (by simp)⟩
  · exact ⟨_, exec_call_overflow hfull nnn, rfl, rfl, frame_raised s _ _⟩

/-- Settles O26: the call leaves the return address in the entry that the return then pops, wherever the callee's pc
is. -/
theorem callThenReturnRestores : Obligations.CallThenReturnRestores := by
  intro s nnn u p hroom hlen
  obtain ⟨-, hcall, -⟩ := callPushesReturnAddress s nnn false
  obtain ⟨t, ht, hentry, htSP, -, -, -, hframe⟩ := hcall hroom hlen
  obtain ⟨-, -, hret, -⟩ := returnPopsStack { t with pc := p } u
  obtain ⟨r, hr, hrSP, hrpc, -, hframe'⟩ := hret (htSP ▸ Nat.succ_ne_zero _)
  have hSP : r.SP = s.SP := Nat.succ.inj (hrSP.trans htSP)
  have hthalted : t.halted = s.halted := (hframe .error (by simp)).1
  have hrhalted : r.halted = t.halted := (hframe' .error (by simp)).1
  refine ⟨t, r, ht, hr, ?_, hSP, hrhalted.trans hthalted⟩
  calc r.pc = t.stackEntry r.SP := hrpc
    _ = t.stackEntry s.SP := by rw [hSP]
    _ = s.pc := hentry

/-! ## Jumps and skips -/

/-- Settles O24: both jumps are one write of the pc, of an address that fits 16 bits. -/
theorem jumpsSetPc : Obligations.JumpsSetPc := by
  intro s nnn strict
  refine ⟨decodeOfEncode strict (.jp nnn) rfl, decodeOfEncode strict (.jpV0 nnn) rfl, ?_, ?_⟩
  · exact ⟨_, rfl, toNat_zextAddr nnn, frame_setPc s _⟩
  · exact ⟨_, rfl, toNat_zextAddr_add_zextByte nnn _, frame_setPc s _⟩

/-- Settles O27: SE skips on the comparison and SNE on its negation. -/
theorem skipsOnImmediate : Obligations.SkipsOnImmediate := by
  intro s x kk strict
  refine ⟨decodeOfEncode strict (.seImm x kk) rfl, decodeOfEncode strict (.sneImm x kk) rfl, ?_, ?_⟩
  · exact ⟨_, rfl, frame_skipIf s _, toNat_pc_skipIf_beq s _ _⟩
  · exact ⟨_, rfl, frame_skipIf s _, toNat_pc_skipIf_bne s _ _⟩

/-- Settles O28: the words round-trip when well-formed and are decode errors otherwise; the skips are those on a byte,
with the other register's contents in its place. -/
theorem skipsOnRegisters : Obligations.SkipsOnRegisters := by
  intro s x y u
  refine ⟨decodeOfEncode false (.seReg x y u) rfl, decodeOfEncode true (.seReg x y 0) rfl,
    decodeOfEncode false (.sneReg x y u) rfl, decodeOfEncode true (.sneReg x y 0) rfl, fun hu => ?_, ?_, ?_⟩
  · have hkeyless : keylessBitsOk true u = false := decide_eq_false hu
    exact ⟨decode_encode_error_of_not_wf (i := .seReg x y u) hkeyless,
      decode_encode_error_of_not_wf (i := .sneReg x y u) hkeyless⟩
  · exact ⟨_, rfl, frame_skipIf s _, toNat_pc_skipIf_beq s _ _⟩
  · exact ⟨_, rfl, frame_skipIf s _, toNat_pc_skipIf_bne s _ _⟩

end Sys2Proof.Machine
end

section
/-! PROOFS. The arithmetic and logic family: the flags as numbers (42_arith_logic.md R166 to R172), what a write of one
register or of a result with its flag says in the statements' terms (R173), and the six statements on loads, arithmetic,
logic, shifts and RND (R160 to R171). -/

namespace Sys2Proof.Machine

/-! ## Flags as numbers (R172) -/

theorem addFlagged_flag (a b : Byte) : (addFlagged a b).flag.toNat = if 255 < a.toNat + b.toNat then 1 else 0 := by
  simp only [addFlagged, toNat_flagByte, decide_eq_true_eq]

theorem subFlagged_flag (a b : Byte) : (subFlagged a b).flag.toNat = if b.toNat ≤ a.toNat then 1 else 0 := by
  simp only [subFlagged, toNat_flagByte, decide_eq_true_eq]

theorem toNat_flagByte_eq_toNat (c : Bool) : (flagByte c).toNat = c.toNat := by cases c <;> rfl

theorem toNat_flagByte_getLsbD (a : Byte) (k : Nat) : (flagByte (a.getLsbD k)).toNat = a.toNat / 2 ^ k % 2 :=
  calc (flagByte (a.getLsbD k)).toNat
    _ = (a.toNat.testBit k).toNat := toNat_flagByte_eq_toNat _
    _ = a.toNat / 2 ^ k % 2 := Nat.toNat_testBit ..

theorem shrFlagged_flag (a : Byte) : (shrFlagged a).flag.toNat = a.toNat % 2 := by
  have h := toNat_flagByte_getLsbD a 0
  rwa [Nat.pow_zero, Nat.div_one] at h

theorem shlFlagged_flag (a : Byte) : (shlFlagged a).flag.toNat = a.toNat / 128 := by
  have h : (shlFlagged a).flag.toNat = a.toNat / 128 % 2 := toNat_flagByte_getLsbD a 7
  have ha : a.toNat < 256 := a.isLt
  omega

/-! ## Writes of one register, and of a result with its flag -/

variable (s : State) (x : Reg)

theorem otherRegs_setReg (v : Byte) : OtherRegs s (s.setReg x v) x := fun _ hr => reg_setReg_other s v hr

variable {s x}

/-- For x = 15 the write that `VF_WRITE_ORDER` puts last is the one VF keeps; for every other x both stand (R173). -/
theorem writesFlagged_setFlagged {f : Flagged} {result flag : Nat} (hresult : f.result.toNat = result)
    (hflag : f.flag.toNat = flag) : WritesFlagged s (s.setFlagged x f) x result flag := by
  refine ⟨fun hx => ?_, fun hx horder => ?_, fun hx horder => ?_, fun r hrx hrf => reg_setFlagged_other f hrx hrf⟩
  · cases horder : s.cfg.vfWriteOrder <;> simp [reg_setFlagged, horder, hx, hx.symm, hresult, hflag]
  · simp [reg_setFlagged, horder, hflag]
  · simp [reg_setFlagged, horder, hx, hresult]

/-! ## Loads, the immediate addition, logic and RND -/

/-- Settles O30: each is one write of the destination register. -/
theorem loadsAndImmediateAdd : Obligations.LoadsAndImmediateAdd := by
  intro s x y kk strict
  refine ⟨decodeOfEncode strict (.ldImm x kk) rfl, decodeOfEncode strict (.addImm x kk) rfl,
    decodeOfEncode strict (.ldReg x y) rfl, ?_, ?_, ?_⟩
  · exact ⟨_, rfl, reg_setReg_same s x _, otherRegs_setReg s x _, frame_setReg s x _⟩
  · exact ⟨_, rfl, by rw [reg_setReg_same, BitVec.toNat_add], otherRegs_setReg s x _, frame_setReg s x _⟩
  · exact ⟨_, rfl, reg_setReg_same s x _, otherRegs_setReg s x _, frame_setReg s x _⟩

/-- Settles O31: each is one write of the destination register, and VF is no exception among the others. -/
theorem logicIsBitwise : Obligations.LogicIsBitwise := by
  intro s x y strict
  refine ⟨decodeOfEncode strict (.orReg x y) rfl, decodeOfEncode strict (.andReg x y) rfl,
    decodeOfEncode strict (.xorReg x y) rfl, ?_, ?_, ?_⟩
  · exact ⟨_, rfl, otherRegs_setReg s x _, frame_setReg s x _, fun j => by rw [reg_setReg_same, BitVec.getLsbD_or]⟩
  · exact ⟨_, rfl, otherRegs_setReg s x _, frame_setReg s x _, fun j => by rw [reg_setReg_same, BitVec.getLsbD_and]⟩
  · exact ⟨_, rfl, otherRegs_setReg s x _, frame_setReg s x _, fun j => by rw [reg_setReg_same, BitVec.getLsbD_xor]⟩

/-- Settles O35: one write of the destination register, for every value of the cycle's random byte. -/
theorem randomMasksDraw : Obligations.RandomMasksDraw := by
  intro s x kk strict
  exact ⟨decodeOfEncode strict (.rnd x kk) rfl, _, rfl, otherRegs_setReg s x _, frame_setReg s x _,
    fun j => by rw [reg_setReg_same, BitVec.getLsbD_and]⟩

/-! ## The instructions that set VF -/

/-- Settles O32: one flagged write of the sum and its carry. -/
theorem addSetsCarry : Obligations.AddSetsCarry := by
  intro s x y strict
  exact ⟨decodeOfEncode strict (.addReg x y) rfl, _, rfl, frame_setFlagged s x _,
    writesFlagged_setFlagged (addFlagged_result _ _) (addFlagged_flag _ _)⟩

/-- Settles O33: SUBN is the flagged write of SUB with the operands exchanged. -/
theorem subtractSetsNoBorrow : Obligations.SubtractSetsNoBorrow := by
  intro s x y strict
  refine ⟨decodeOfEncode strict (.subReg x y) rfl, decodeOfEncode strict (.subnReg x y) rfl, ?_, ?_⟩
  · exact ⟨_, rfl, frame_setFlagged s x _, writesFlagged_setFlagged (subFlagged_result _ _) (subFlagged_flag _ _)⟩
  · exact ⟨_, rfl, frame_setFlagged s x _, writesFlagged_setFlagged (subFlagged_result _ _) (subFlagged_flag _ _)⟩

/-- Settles O34: the flagged write is of Vx shifted, and Vy occurs in the word alone. -/
theorem shiftsSetBitOut : Obligations.ShiftsSetBitOut := by
  intro s x y strict
  refine ⟨decodeOfEncode strict (.shr x y) rfl, decodeOfEncode strict (.shl x y) rfl, ?_, ?_⟩
  · exact ⟨_, rfl, frame_setFlagged s x _, writesFlagged_setFlagged (shrFlagged_result _) (shrFlagged_flag _)⟩
  · exact ⟨_, rfl, frame_setFlagged s x _, writesFlagged_setFlagged (shlFlagged_result _) (shlFlagged_flag _)⟩

end Sys2Proof.Machine
end

section
/-! PROOFS. The index-register and memory family: the bytes a block transfer at `I` writes and leaves alone
(20_memory.md R65 to R68), its error (R67, R255), and the five statements on LD I, ADD I, LD F, LD B, LD [I] and
LD Vx, [I] (43_memory_index.md R190 to R196). -/

namespace Sys2Proof.Machine

variable {s : State} {i : Instr} {x : Reg} {w : Word} {count k : Nat}

/-! ## A block of bytes at `I` -/

/-- What `EA(I + k)` answers for an accessible byte is its data address (R66). -/
theorem eq_dataAddr {a : Nat} (hacc : s.accessible count) (hk : k < count)
    (ha : effectiveAddr s.cfg (s.I.toNat + k) = .ok a) : a = s.dataAddr k :=
  Except.ok.inj (ha.symm.trans (effectiveAddr_dataAddr hacc hk))

/-- Every block an instruction transfers is shorter than memory (R7). -/
theorem block_le_memSize (hcfg : s.cfg.wf) (hcount : count ≤ 16) : count ≤ s.cfg.memSize := by
  obtain ⟨hsize, -⟩ := hcfg
  exact Nat.le_trans hcount (Nat.le_trans (by decide) hsize)

/-- Bytes written to a block read back, each at its own data address (R65, R70). -/
theorem readByte_writeBlock {bytes : List Byte} (hacc : s.accessible count) (hm : count ≤ s.cfg.memSize)
    (hlen : count ≤ bytes.length) (hk : k < count) :
    (s.writeBytes (((List.range count).map s.dataAddr).zip bytes)).readByte (s.dataAddr k) =
      bytes[k]'(Nat.lt_of_lt_of_le hk hlen) := by
  have haddrs : ((((List.range count).map s.dataAddr).zip bytes).map (·.1)).Nodup := by
    rw [List.map_fst_zip (by simpa using hlen)]
    exact nodup_dataAddrs hacc hm
  refine readByte_writeBytes_mem s _ haddrs (List.mem_iff_getElem.mpr ⟨k, ?_, ?_⟩)
  · simpa using ⟨hk, Nat.lt_of_lt_of_le hk hlen⟩
  · simp

/-- A byte that is no `EA` of the block keeps its value (R65). -/
theorem readByte_writeBlock_other {bytes : List Byte} {b : Nat} (hacc : s.accessible count)
    (hb : ∀ k, k < count → effectiveAddr s.cfg (s.I.toNat + k) ≠ .ok b) :
    (s.writeBytes (((List.range count).map s.dataAddr).zip bytes)).readByte b = s.readByte b := by
  refine readByte_writeBytes_other s _ fun c hc hcb => ?_
  obtain ⟨k, hk, hkc⟩ := List.mem_map.mp (List.of_mem_zip hc).1
  have hlt : k < count := List.mem_range.mp hk
  exact hb k hlt (hcb ▸ hkc ▸ effectiveAddr_dataAddr hacc hlt)

/-- An instruction that accesses `count` bytes at `I` raises under `Fail` when the last one is outside memory (R67). -/
theorem raisesOutOfRange_of_withDataAddrs {effect : List Nat → State}
    (hexec : exec i s = s.withDataAddrs w count effect) (hp : s.cfg.boundsPolicy = .fail) (hcount : 0 < count)
    (hout : s.cfg.memSize < s.I.toNat + count) :
    RaisesOutOfRange i w s :=
  ⟨_, hexec.trans (withDataAddrs_outOfRange hp hcount hout w effect), rfl, rfl, frame_raised s _ _⟩

/-- `I` past a transferred block, mod 2^16 (R194, R195). -/
theorem toNat_I_advanced (s : State) (x : Reg) :
    (s.I + BitVec.ofNat 16 (x.val + 1)).toNat = (s.I.toNat + x.val + 1) % 65536 := by
  rw [BitVec.toNat_add, BitVec.toNat_ofNat, Nat.add_mod_mod, Nat.add_assoc]

/-! ## Writes of the index register -/

/-- Five times a byte fits 16 bits (R192, I6). -/
theorem toNat_glyphAddr (v : Byte) : (glyphAddr v).toNat = v.toNat * 5 := by
  have hv : v.toNat < 256 := v.isLt
  rw [glyphAddr, glyphHeight, BitVec.toNat_ofNat, Nat.mod_eq_of_lt (by omega)]

/-- Settles O36: each is one write of `I`. -/
theorem indexRegisterWrites : Obligations.IndexRegisterWrites := by
  intro s x nnn strict
  refine ⟨decodeOfEncode strict (.ldI nnn) rfl, decodeOfEncode strict (.addI x) rfl,
    decodeOfEncode strict (.ldF x) rfl, ?_, ?_, ?_⟩
  · exact ⟨_, rfl, toNat_zextAddr nnn, frame_setI s _⟩
  · exact ⟨_, rfl, by rw [State.setI_I, BitVec.toNat_add, toNat_zextByte], frame_setI s _⟩
  · exact ⟨_, rfl, toNat_glyphAddr _, frame_setI s _⟩

/-! ## Decimal digits -/

theorem length_bcdDigits (v : Byte) : (bcdDigits v).length = 3 := rfl

/-- Digit `k`, most significant first, is that of weight 10^(2 - k); the first needs no reduction, a byte being below
1000 (R193). -/
theorem toNat_getElem_bcdDigits (v : Byte) (hk : k < 3) :
    ((bcdDigits v)[k]'hk).toNat = v.toNat / 10 ^ (2 - k) % 10 := by
  have hv : v.toNat < 256 := v.isLt
  interval_cases k <;> simp [bcdDigits] <;> omega

/-- Settles O37: the three digits are one block written at `I`. -/
theorem storeBcdWritesDigits : Obligations.StoreBcdWritesDigits := by
  intro s x strict
  refine ⟨decodeOfEncode strict (.ldB x) rfl, fun hcfg hacc => ?_, fun hp hout => ?_⟩
  · refine ⟨_, withDataAddrs_accessible hacc _ _, fun k a hk ha => ?_, fun b hb => ?_, frame_writeBytes s _⟩
    · rw [eq_dataAddr hacc hk ha, readByte_writeBlock hacc (block_le_memSize hcfg (by decide))
        (length_bcdDigits _).ge hk]
      exact toNat_getElem_bcdDigits _ hk
    · exact readByte_writeBlock_other hacc hb
  · exact raisesOutOfRange_of_withDataAddrs rfl hp (by decide) (by omega)

/-! ## Register blocks -/

/-- Settles O38: V0 to Vx are one block written at `I`, and then `I` advances. -/
theorem storeRegistersWritesBlock : Obligations.StoreRegistersWritesBlock := by
  intro s x strict
  refine ⟨decodeOfEncode strict (.storeRegs x) rfl, fun hcfg hacc => ?_, fun hp hout => ?_⟩
  · refine ⟨_, withDataAddrs_accessible hacc _ _, fun k a hk ha => ?_, fun b hb => ?_, toNat_I_advanced s x,
      (frame_writeBytes s _).andThen (frame_setI _ _) (by simp)⟩
    · have hlt : k.val < x.val + 1 := Nat.lt_succ_of_le hk
      have hregs : x.val + 1 ≤ s.V.toList.length := by simp
      rw [eq_dataAddr hacc hlt ha, State.setI_readByte,
        readByte_writeBlock hacc (block_le_memSize hcfg x.isLt) hregs hlt]
      simp [State.reg]
    · exact readByte_writeBlock_other hacc fun k hk =>
        hb ⟨k, Nat.lt_of_lt_of_le hk x.isLt⟩ (Nat.le_of_lt_succ hk)
  · exact raisesOutOfRange_of_withDataAddrs rfl hp (Nat.succ_pos _) (by omega)

/-- A register within a loaded block is the byte at its data address (R195). -/
theorem reg_loadRegBlock_dataAddr {r : Reg} (hr : r.val < count) :
    (s.loadRegBlock (((List.range count).map s.dataAddr).map s.readByte)).reg r = s.readByte (s.dataAddr r.val) := by
  rw [reg_loadRegBlock]
  simp [hr]

/-- Settles O39: the block at `I` goes to V0 to Vx, and then `I` advances. -/
theorem loadRegistersReadsBlock : Obligations.LoadRegistersReadsBlock := by
  intro s x strict
  refine ⟨decodeOfEncode strict (.loadRegs x) rfl, fun hacc => ?_, fun hp hout => ?_⟩
  · refine ⟨_, withDataAddrs_accessible hacc _ _, fun k a hk ha => ?_, fun k hk => ?_, toNat_I_advanced s x,
      (frame_loadRegBlock s _).andThen (frame_setI _ _) (by simp)⟩
    · have hlt : k.val < x.val + 1 := Nat.lt_succ_of_le hk
      rw [eq_dataAddr hacc hlt ha, State.setI_reg, reg_loadRegBlock_dataAddr hlt]
    · have hlen : (((List.range (x.val + 1)).map s.dataAddr).map s.readByte).length ≤ k.val := by simpa using hk
      rw [State.setI_reg, reg_loadRegBlock_beyond hlen]
  · exact raisesOutOfRange_of_withDataAddrs rfl hp (Nat.succ_pos _) (by omega)

/-- Settles O40: with `I` set back, the load reads the addresses the store wrote. -/
theorem storeThenLoadRoundTrip : Obligations.StoreThenLoadRoundTrip := by
  intro s x v hcfg hacc
  obtain ⟨-, hstore, -⟩ := storeRegistersWritesBlock s x false
  obtain ⟨t, ht, hstored, -, htI, hframe⟩ := hstore hcfg hacc
  obtain ⟨htcfg, -⟩ : Part.inputs.same s t := hframe .inputs (by decide)
  have hacc' : State.accessible { t with V := v, I := s.I } (x.val + 1) := by
    simpa only [State.accessible, htcfg] using hacc
  obtain ⟨-, hload, -⟩ := loadRegistersReadsBlock { t with V := v, I := s.I } x false
  obtain ⟨u, hu, hloaded, hbeyond, huI, -⟩ := hload hacc'
  refine ⟨t, u, ht, hu, fun k hk => ?_, hbeyond, BitVec.eq_of_toNat_eq (htI.trans huI.symm), huI⟩
  have haddr := effectiveAddr_dataAddr hacc (Nat.lt_succ_of_le hk)
  calc u.reg k = t.readByte (s.dataAddr k.val) := hloaded k _ hk (htcfg ▸ haddr)
    _ = s.reg k := hstored k _ hk haddr

end Sys2Proof.Machine
end

section
/-! PROOFS. The display family: the compositor column by column (44_display.md R211, R216), a draw pixel by pixel on the
whole screen (R213 to R215), and the six statements on CLS, the compositor and DRW (R210 to R218). -/

namespace Sys2Proof.Machine

variable {s t : State} {row v w : Row} {b : Byte} {h v0 n : Nat}

/-! ## Rows and sprite bytes, column by column -/

/-- A row is its 64 columns (R31). -/
theorem row_ext (hcol : ∀ c : Fin 64, v.getLsbD (63 - c.val) = w.getLsbD (63 - c.val)) : v = w :=
  BitVec.eq_of_getLsbD_eq fun k hk => by
    simpa [show 63 - (63 - k) = k by omega] using hcol ⟨63 - k, by omega⟩

theorem row_ne_zero_iff : v ≠ 0 ↔ ∃ c : Fin 64, v.getLsbD (63 - c.val) = true := by
  constructor
  · intro hv
    by_contra hnone
    exact hv (row_ext fun c => by simpa using not_exists.mp hnone c)
  · rintro ⟨c, hc⟩ rfl
    simp at hc

/-- Sprite pixel `p`, and no other, lands on column `(h + p) mod 64` (R211). -/
theorem spritePixel_of_lands {p c : Nat} (hh : h < 64) (hp : p < 8) (hc : (h + p) % 64 = c) :
    spritePixel b h c = b.getLsbD (7 - p) := by
  have hback : (c + (64 - h)) % 64 = p := by omega
  simp [spritePixel, hback, hp]

/-- A column on which no sprite pixel lands shows none (R216). -/
theorem spritePixel_of_uncovered {c : Nat} (hh : h < 64) (hc : c < 64) (hfree : ∀ p, p < 8 → (h + p) % 64 ≠ c) :
    spritePixel b h c = false := by
  have hback : ¬ (c + (64 - h)) % 64 < 8 := fun hlt => hfree _ hlt (by omega)
  simp [spritePixel, hback]

theorem spritePixel_eq_true_iff {c : Nat} (hh : h < 64) (hc : c < 64) :
    spritePixel b h c = true ↔ ∃ p, p < 8 ∧ (h + p) % 64 = c ∧ b.getLsbD (7 - p) = true := by
  constructor
  · intro hon
    rw [spritePixel, Bool.and_eq_true, decide_eq_true_iff] at hon
    obtain ⟨hlt, hbit⟩ := hon
    exact ⟨_, hlt, by omega, hbit⟩
  · rintro ⟨p, hp, hpc, hbit⟩
    rw [spritePixel_of_lands hh hp hpc, hbit]

/-- A sprite byte that is not zero shows somewhere on its row, wherever it is drawn. -/
theorem exists_spritePixel (hb : b ≠ 0) (hh : h < 64) : ∃ c : Fin 64, spritePixel b h c.val = true := by
  by_contra hnone
  refine hb (BitVec.eq_of_getLsbD_eq fun k hk => ?_)
  have hoff := not_exists.mp hnone ⟨(h + (7 - k)) % 64, by omega⟩
  rw [spritePixel_of_lands hh (p := 7 - k) (by omega) rfl] at hoff
  simpa [show 7 - (7 - k) = k by omega] using hoff

/-! ## The compositor (R211, R216) -/

/-- Each column is inverted by the sprite pixel on it and reads no other (R216). -/
theorem getLsbD_compose (row : Row) (b : Byte) (hh : h < 64) (c : Fin 64) :
    (compose row b h).1.getLsbD (63 - c.val) = (row.getLsbD (63 - c.val) ^^ spritePixel b h c.val) := by
  rw [compose, BitVec.getLsbD_xor, getLsbD_spriteMask b hh c.isLt]

/-- A row collides when some column of it is lit and under a sprite pixel (R216). -/
theorem compose_hit_iff (hh : h < 64) : (compose row b h).2 = true ↔
    ∃ c : Fin 64, row.getLsbD (63 - c.val) = true ∧ spritePixel b h c.val = true := by
  rw [compose, decide_eq_true_iff, row_ne_zero_iff]
  simp only [BitVec.getLsbD_and, Bool.and_eq_true, getLsbD_spriteMask b hh (Fin.isLt _)]

/-- Settles O44: the sprite pixel on a column is the byte's pixel that lands there, if one does. -/
theorem composeInvertsSpritePixels : Obligations.ComposeInvertsSpritePixels := by
  intro row b h hh
  refine ⟨fun p hp => ?_, fun c hc hfree => ?_, ?_⟩
  · rw [getLsbD_compose row b hh ⟨(h + p) % 64, by omega⟩, spritePixel_of_lands hh hp rfl]
  · rw [getLsbD_compose row b hh ⟨c, hc⟩, spritePixel_of_uncovered hh hc hfree, Bool.xor_false]
  · rw [compose_hit_iff hh]
    constructor
    · rintro ⟨c, hlit, hon⟩
      obtain ⟨p, hp, hpc, hbit⟩ := (spritePixel_eq_true_iff hh c.isLt).mp hon
      exact ⟨p, hp, hpc ▸ hlit, hbit⟩
    · rintro ⟨p, hp, hlit, hbit⟩
      exact ⟨⟨(h + p) % 64, by omega⟩, hlit, (spritePixel_of_lands hh hp rfl).trans hbit⟩

/-- Settles O48: at column 60 sprite pixel `p` lands on column 60 + p, or on column p - 4 past the edge. -/
theorem spriteStraddlesRightEdge : Obligations.SpriteStraddlesRightEdge := by
  intro b p
  obtain ⟨hcovered, huncovered, -⟩ := composeInvertsSpritePixels 0 b 60 (by decide)
  refine ⟨fun hp => ?_, fun hp => ?_, fun hp hp' => ?_⟩
  · simpa [show (60 + p) % 64 = 60 + p by omega] using hcovered p (by omega)
  · simpa [show (60 + (p + 4)) % 64 = p by omega, show 7 - (p + 4) = 3 - p by omega] using hcovered (p + 4) (by omega)
  · simpa using huncovered p (by omega) fun q hq => by omega

/-- A byte reduced mod 2^m keeps its low m bits. -/
theorem getElem_lowBits (b : Byte) (m : Nat) {k : Nat} (hk : k < 64) :
    (BitVec.ofNat 64 (b.toNat % 2 ^ m))[k] = (decide (k < m) && b.getLsbD k) := by
  rw [← BitVec.getLsbD_eq_getElem, BitVec.getLsbD_ofNat, decide_eq_true hk, Bool.true_and, Nat.testBit_mod_two_pow,
    BitVec.testBit_toNat]

/-- Settles O45: the rotation is a part that stays right of column `h` and a part that wraps to the left edge. Up to
offset 56 nothing wraps; beyond it the high bits stay and the low `h - 56` bits wrap. -/
theorem splitMaskEqualsRotated : Obligations.SplitMaskEqualsRotated := by
  intro b h hh
  unfold spriteMaskSplit spriteMask rotr64
  split
  · have hstay : (b.zeroExtend 64 <<< 56) >>> h = b.zeroExtend 64 <<< (56 - h) := by
      ext k hk
      grind
    have hwrap : (b.zeroExtend 64 <<< 56) <<< (64 - h) = 0#64 := by
      ext k hk
      grind
    rw [hstay, hwrap, BitVec.or_zero]
  · have hstay : (b.zeroExtend 64 <<< 56) >>> h = (b >>> (h - 56)).zeroExtend 64 := by
      ext k hk
      grind
    have hwrap : (b.zeroExtend 64 <<< 56) <<< (64 - h) = BitVec.ofNat 64 (b.toNat % 2 ^ (h - 56)) <<< (120 - h) := by
      ext k hk
      grind [getElem_lowBits]
    rw [hstay, hwrap]

/-! ## CLS (R210) -/

/-- Settles O43: one write of the display, of blank rows. -/
theorem clearScreenTurnsAllOff : Obligations.ClearScreenTurnsAllOff := by
  intro s u
  refine ⟨decodeOfEncode false (.cls u) rfl, decodeOfEncode true (.cls 0) rfl, _, rfl, fun r c => ?_,
    frame_setDisplay s _⟩
  simp [State.pixel]

/-! ## The sprite on the screen (R213, R215) -/

/-- Every screen row is that of one of 32 sprite rows. -/
theorem exists_screenRow (v0 : Nat) (r : Fin 32) : ∃ j, j < 32 ∧ screenRow v0 j = r :=
  ⟨(r.val + (32 - v0 % 32)) % 32, by omega, Fin.ext (by simp only [screenRow, Fin.val_ofNat]; omega)⟩

theorem screenRow_injective {j k : Nat} (hj : j < 32) (hk : k < 32) (heq : screenRow v0 j = screenRow v0 k) :
    j = k := by
  have hval := congrArg Fin.val heq
  simp only [screenRow, Fin.val_ofNat] at hval
  omega

/-- Sprite row `j` is what falls on the `j`-th screen row from the top of the sprite (R215). -/
theorem spriteAt_screenRow {j : Nat} (hv : v0 < 32) (hj : j < 32) (c : Fin 64) : s.spriteAt h v0 n (screenRow v0 j) c =
    (decide (j < n) && spritePixel (s.readByte (s.dataAddr j)) h c.val) := by
  have hback : ((screenRow v0 j).val + (32 - v0)) % 32 = j := by
    simp only [screenRow, Fin.val_ofNat]
    omega
  rw [State.spriteAt, hback]

/-- The sprite depends on the memory, `I` and the configuration only. -/
theorem spriteAt_congr (hcfg : t.cfg = s.cfg) (hI : t.I = s.I) (hM : ∀ a, t.readByte a = s.readByte a) :
    t.spriteAt = s.spriteAt := by
  funext h v0 n r c
  simp only [State.spriteAt, State.dataAddr, hcfg, hI, hM]

/-! ## The draw loop, pixel by pixel -/

/-- The bytes of a sprite of `n` rows, as DRW reads them (R213). -/
def State.spriteBytes (s : State) (n : Nat) : List Byte := ((List.range n).map s.dataAddr).map s.readByte

@[simp] theorem length_spriteBytes : (s.spriteBytes n).length = n := by simp [State.spriteBytes]

@[simp] theorem getElem_spriteBytes {j : Nat} (hj : j < (s.spriteBytes n).length) :
    (s.spriteBytes n)[j] = s.readByte (s.dataAddr j) := by simp [State.spriteBytes]

section Loop

variable (hh : h < 64) (hv : v0 < 32) (hn : n ≤ 32) (d : Vector Row 32)
include hh hv hn

/-- A draw inverts each pixel of the screen by the sprite pixel on it (R213, R215). -/
theorem getLsbD_drawRows (r : Fin 32) (c : Fin 64) : (drawRows h v0 (s.spriteBytes n) d).1[r].getLsbD (63 - c.val) =
    (d[r].getLsbD (63 - c.val) ^^ s.spriteAt h v0 n r c) := by
  obtain ⟨hdrawn, hother, -⟩ := drawRows_spec h (s.spriteBytes n) v0 d (by simpa using hn)
  obtain ⟨j, hj, rfl⟩ := exists_screenRow v0 r
  rw [spriteAt_screenRow hv hj]
  by_cases hjn : j < n
  · rw [hdrawn j (by simpa using hjn), getLsbD_compose _ _ hh]
    simp [hjn]
  · have hout : ∀ k, k < (s.spriteBytes n).length → screenRow v0 k ≠ screenRow v0 j := fun k hk heq => by
      rw [length_spriteBytes] at hk
      have := screenRow_injective (by omega) hj heq
      omega
    rw [hother _ hout]
    simp [hjn]

/-- A draw collides when it turns a lit pixel off (R214). -/
theorem drawRows_hit_iff : (drawRows h v0 (s.spriteBytes n) d).2 = true ↔ ∃ (r : Fin 32) (c : Fin 64),
    d[r].getLsbD (63 - c.val) = true ∧ (drawRows h v0 (s.spriteBytes n) d).1[r].getLsbD (63 - c.val) = false := by
  have hturned : ∀ (r : Fin 32) (c : Fin 64), (d[r].getLsbD (63 - c.val) = true ∧
      (drawRows h v0 (s.spriteBytes n) d).1[r].getLsbD (63 - c.val) = false) ↔
      (d[r].getLsbD (63 - c.val) = true ∧ s.spriteAt h v0 n r c = true) := fun r c => by
    rw [getLsbD_drawRows hh hv hn]
    exact and_congr_right fun hlit => by rw [hlit, Bool.true_xor, Bool.not_eq_false']
  obtain ⟨-, -, hflag⟩ := drawRows_spec h (s.spriteBytes n) v0 d (by simpa using hn)
  simp only [hflag, hturned, compose_hit_iff hh, getElem_spriteBytes]
  constructor
  · rintro ⟨j, hj, c, hlit, hon⟩
    rw [length_spriteBytes] at hj
    exact ⟨screenRow v0 j, c, hlit, by simp [spriteAt_screenRow hv (Nat.lt_of_lt_of_le hj hn), hj, hon]⟩
  · rintro ⟨r, c, hlit, hon⟩
    obtain ⟨j, hj, rfl⟩ := exists_screenRow v0 r
    rw [spriteAt_screenRow hv hj, Bool.and_eq_true, decide_eq_true_iff] at hon
    obtain ⟨hjn, hon⟩ := hon
    exact ⟨j, by simpa using hjn, c, hlit, hon⟩

end Loop

/-! ## DRW -/

theorem flagByte_eq_one {c : Bool} (hc : c = true) : flagByte c = 1 := by rw [hc]; rfl

theorem flagByte_eq_zero {c : Bool} (hc : ¬ c = true) : flagByte c = 0 := by rw [Bool.eq_false_iff.mpr hc]; rfl

/-- DRW that completes: one write of the display and then of VF (R213). -/
theorem exec_drw_completes {n : Nibble} (hacc : n.toNat = 0 ∨ s.accessible n.toNat) (x y : Reg) :
    exec (.drw x y n) s = .next
      ((s.setDisplay
        (drawRows ((s.reg x).toNat % 64) ((s.reg y).toNat % 32) (s.spriteBytes n.toNat) s.DISP).1).setReg VF
        (flagByte (drawRows ((s.reg x).toNat % 64) ((s.reg y).toNat % 32) (s.spriteBytes n.toNat) s.DISP).2)) :=
  withDataAddrs_completes hacc _ _

/-- Settles O46: the draw loop inverts the pixels under the sprite and flags each lit one it turns off. -/
theorem drawInvertsSpriteAndReportsCollision : Obligations.DrawInvertsSpriteAndReportsCollision := by
  intro s x y n strict
  refine ⟨decodeOfEncode strict (.drw x y n) rfl, fun hacc => ?_, fun hp hn hout => ?_⟩
  · have hh : (s.reg x).toNat % 64 < 64 := Nat.mod_lt _ (by decide)
    have hv : (s.reg y).toNat % 32 < 32 := Nat.mod_lt _ (by decide)
    have hn : n.toNat ≤ 32 := by have := n.isLt; omega
    have hhit := drawRows_hit_iff (s := s) hh hv hn s.DISP
    refine ⟨_, exec_drw_completes hacc x y, getLsbD_drawRows hh hv hn s.DISP, fun hturned => ?_, fun hkeep => ?_,
      fun r hr => reg_setReg_other _ _ hr, (frame_setDisplay s _).andThen (frame_setReg _ _ _) (by simp)⟩
    · rw [reg_setReg_same]
      exact flagByte_eq_one (hhit.mpr hturned)
    · rw [reg_setReg_same]
      exact flagByte_eq_zero fun htrue =>
        let ⟨r, c, hlit, hoff⟩ := hhit.mp htrue
        Bool.false_ne_true (hoff.symm.trans (hkeep r c hlit))
  · exact raisesOutOfRange_of_withDataAddrs rfl hp hn (by omega)

/-- The pixels of a sprite whose bytes are all zero. -/
theorem spriteAt_of_zero (hzero : ∀ j, j < n → s.readByte (s.dataAddr j) = 0) (r : Fin 32) (c : Fin 64) :
    s.spriteAt h v0 n r c = false := by
  rw [State.spriteAt, Bool.and_eq_false_imp]
  intro hlt
  simp [hzero _ (of_decide_eq_true hlt), spritePixel]

theorem exists_spriteAt {j : Nat} (hh : h < 64) (hv : v0 < 32) (hn : n ≤ 32) (hj : j < n)
    (hb : s.readByte (s.dataAddr j) ≠ 0) : ∃ r c, s.spriteAt h v0 n r c = true := by
  obtain ⟨c, hc⟩ := exists_spritePixel hb hh
  exact ⟨screenRow v0 j, c, by simp [spriteAt_screenRow hv (Nat.lt_of_lt_of_le hj hn), hj, hc]⟩

/-- Settles O47: with neither coordinate in VF the second draw puts the same sprite on the same pixels, so it turns off
exactly what the first one lit. -/
theorem drawTwiceRestoresScreen : Obligations.DrawTwiceRestoresScreen := by
  intro s x y n hx hy hacc
  obtain ⟨-, hdraw, -⟩ := drawInvertsSpriteAndReportsCollision s x y n false
  obtain ⟨t, ht, htpixel, -, -, htregs, htframe⟩ := hdraw hacc
  have htcfg : t.cfg = s.cfg := (htframe .inputs (by decide)).1
  have htI : t.I = s.I := htframe .index (by decide)
  obtain ⟨-, hdraw', -⟩ := drawInvertsSpriteAndReportsCollision t x y n false
  obtain ⟨u, hu, hupixel, hVFone, hVFzero, -, -⟩ := hdraw' (by rwa [State.accessible, htcfg, htI])
  rw [spriteAt_congr htcfg htI (htframe .memory (by decide)), htregs x hx, htregs y hy] at hupixel
  have hrestored : ∀ r c, u.pixel r c = s.pixel r c := fun r c => by rw [hupixel, htpixel]; simp
  have hlights : (∃ r c, s.pixel r c = false ∧ t.pixel r c = true) → u.reg VF = 1 :=
    fun ⟨r, c, hoff, hon⟩ => hVFone ⟨r, c, hon, (hrestored r c).trans hoff⟩
  have hlightsNone : (∀ r c, t.pixel r c = true → s.pixel r c = true) → u.reg VF = 0 :=
    fun hkeep => hVFzero fun r c hon => (hrestored r c).trans (hkeep r c hon)
  refine ⟨t, u, ht, hu, fun r => row_ext (hrestored r), hlights, hlightsNone, fun hblank ⟨j, hj, hb⟩ => ?_,
    fun hzero => hlightsNone fun r c hon => ?_⟩
  · obtain ⟨r, c, hon⟩ := exists_spriteAt (s := s) (Nat.mod_lt (s.reg x).toNat (by decide : 0 < 64))
      (Nat.mod_lt (s.reg y).toNat (by decide : 0 < 32)) (by have := n.isLt; omega) hj hb
    exact hlights ⟨r, c, hblank r c, by rw [htpixel, hblank, hon]; rfl⟩
  · rwa [htpixel, spriteAt_of_zero hzero, Bool.xor_false] at hon

end Sys2Proof.Machine
end

section
/-! PROOFS. The timer and keypad family: the key test as a condition on numbers (45_timer_keypad.md D12), what the wait
for a key does with and without a held key (R235), and the four statements on SKP, SKNP, the timer transfers and
LD Vx, K (R230 to R236). -/

namespace Sys2Proof.Machine

variable {s : State}

/-! ## The key test -/

/-- A register names a held key exactly when it is below 16 and that bit of KEYS is set (D12). -/
theorem keyPressed_iff (keys : Word) (v : Byte) :
    keyPressed keys v = true ↔ v.toNat < 16 ∧ keys.toNat.testBit v.toNat = true := by
  rw [keyPressed, Bool.and_eq_true, decide_eq_true_eq, BitVec.getLsbD]

/-! ## The wait for a key -/

/-- With no key held, LD Vx, K takes back the fetch's advance (R235). -/
theorem exec_ldVxK_waits (hkeys : s.KEYS = 0) (x : Reg) : exec (.ldVxK x) s = .next (s.setPc (s.pc - 2)) :=
  execLdVxK_none ((lowestKey_none _).mpr hkeys)

/-- With a key held, LD Vx, K writes the number of the lowest one, which fits the register (R235). -/
theorem exec_ldVxK_takes (hkeys : s.KEYS ≠ 0) (x : Reg) : ∃ v : Byte, exec (.ldVxK x) s = .next (s.setReg x v) ∧
    s.KEYS.getLsbD v.toNat = true ∧ ∀ j, j < v.toNat → s.KEYS.getLsbD j = false := by
  obtain ⟨k, hk⟩ := Option.ne_none_iff_exists'.mp (mt (lowestKey_none s.KEYS).mp hkeys)
  obtain ⟨hk16, hheld, hlower⟩ := lowestKey_some hk
  have htoNat : (BitVec.ofNat 8 k).toNat = k := by
    rw [BitVec.toNat_ofNat, Nat.mod_eq_of_lt (by omega)]
  exact ⟨BitVec.ofNat 8 k, execLdVxK_some hk, by rwa [htoNat], by rwa [htoNat]⟩

/-- In a cycle without keys, LD Vx, K leaves only the cycle's inputs and its result (R236). -/
theorem exec_ldVxK_enter_waits (s : State) (x : Reg) (rand : Byte) :
    exec (.ldVxK x) (s.enter 0 rand) = .next { s with KEYS := 0, rand := rand, result := some .ok } := by
  have hpc : (s.enter 0 rand).pc - 2 = s.pc := BitVec.add_sub_cancel s.pc 2
  rw [exec_ldVxK_waits (s.enter_KEYS 0 rand), hpc]
  rfl

/-- Settles O52: without keys the cycle's only traces are its inputs and its result, which neither the observation nor
the fetch reads; with a key the one register write keeps the fetch's advance. -/
theorem waitHoldsUntilKey : Obligations.WaitHoldsUntilKey := by
  intro s x keys rand hs hf
  have hd : decode s.cfg.strictDecode (encode (.ldVxK x)) = .ok (.ldVxK x) := decodeOfEncode _ _ rfl
  refine ⟨?_, fun hkeys => ?_⟩
  · exact ⟨_, (cycle_run hs hf hd 0 rand).trans (exec_ldVxK_enter_waits s x rand), rfl, rfl, rfl⟩
  · obtain ⟨v, hexec, hheld, hlower⟩ := exec_ldVxK_takes (s := s.enter keys rand) hkeys x
    refine ⟨_, (cycle_run hs hf hd keys rand).trans hexec, rfl, rfl, ?_⟩
    rw [reg_setReg_same]
    exact ⟨hheld, hlower⟩

/-- Settles O50: one register write with a key held, and one write of the pc with none. -/
theorem waitForKeyTakesLowest : Obligations.WaitForKeyTakesLowest := by
  intro s x strict
  refine ⟨decodeOfEncode strict (.ldVxK x) rfl, fun hkeys => ?_, fun hkeys => ?_⟩
  · obtain ⟨v, hexec, hheld, hlower⟩ := exec_ldVxK_takes hkeys x
    refine ⟨_, hexec, ?_, ?_, otherRegs_setReg s x v, frame_setReg s x v⟩
    · rwa [reg_setReg_same]
    · rwa [reg_setReg_same]
  · have hpc : (s.pc - 2).toNat = (s.pc.toNat + 65534) % 65536 := by bv_omega
    exact ⟨_, exec_ldVxK_waits hkeys x, hpc, frame_setPc s _⟩

/-! ## Skips on keys -/

/-- Settles O29: SKP skips on the key test and SKNP on its negation. -/
theorem skipsOnKeys : Obligations.SkipsOnKeys := by
  intro s x strict
  refine ⟨decodeOfEncode strict (.skp x) rfl, decodeOfEncode strict (.sknp x) rfl, ?_, ?_⟩
  · refine ⟨_, rfl, frame_skipIf s _, ?_⟩
    simp only [toNat_pc_skipIf, keyPressed_iff]
  · refine ⟨_, rfl, frame_skipIf s _, ?_⟩
    simp only [toNat_pc_skipIf, Bool.not_eq_true', ← Bool.not_eq_true, keyPressed_iff, ite_not]

/-! ## Timer transfers -/

/-- Settles O49: each is one write, of the register or of the timer the instruction names. -/
theorem timerTransfers : Obligations.TimerTransfers := by
  intro s x strict
  refine ⟨decodeOfEncode strict (.ldVxDT x) rfl, decodeOfEncode strict (.ldDTVx x) rfl,
    decodeOfEncode strict (.ldSTVx x) rfl, ?_, ?_, ?_⟩
  · exact ⟨_, rfl, reg_setReg_same s x _, otherRegs_setReg s x _, frame_setReg s x _⟩
  · exact ⟨_, rfl, s.setDT_DT _, frame_setDT s _⟩
  · exact ⟨_, rfl, s.setST_ST _, frame_setST s _⟩

end Sys2Proof.Machine
end

section
/-! PROOFS. The exceptions family: the errors an instruction can take (60_exceptions.md R253 to R255, R258), the one
result of each cycle (R250), the latch and what an error leaves unchanged (R256, R259), and the timer tick between
cycles (R270, R271). -/

namespace Sys2Proof.Machine

variable {s t : State} {i : Instr} {k : ErrorKind} {keys : Word} {rand : Byte}

/-! ## Every instruction and every cycle answers a next state -/

theorem withDataAddrs_total (s : State) (w : Word) (count : Nat) (effect : List Nat → State) :
    ∃ t, s.withDataAddrs w count effect = .next t := by
  unfold State.withDataAddrs
  split
  · exact ⟨_, rfl⟩
  · exact ⟨_, rfl⟩

/-- No instruction ends in a fault or a refusal: its errors are next states too (R259; assumption log 7). -/
theorem exec_total (i : Instr) (s : State) : ∃ t, exec i s = .next t := by
  cases i with
  | ret u =>
    by_cases hSP : s.SP = 0
    · exact ⟨_, exec_ret_underflow hSP u⟩
    · exact ⟨_, exec_ret_pop hSP u⟩
  | call nnn =>
    by_cases hfull : s.SP = s.cfg.stackDepth
    · exact ⟨_, exec_call_overflow hfull nnn⟩
    · exact ⟨_, exec_call_push hfull nnn⟩
  | drw x y n | ldB x | storeRegs x | loadRegs x => exact withDataAddrs_total ..
  | _ => exact ⟨_, rfl⟩

theorem cycle_total (s : State) (keys : Word) (rand : Byte) : ∃ t, s.cycle keys rand = .next t := by
  unfold State.cycle
  split
  · exact ⟨_, rfl⟩
  · split
    · exact ⟨_, rfl⟩
    · split
      · exact ⟨_, rfl⟩
      · exact exec_total _ _

/-! ## The errors of execution -/

/-- The four instructions that access memory at `I` (R255). -/
def AccessesMemory (i : Instr) : Prop :=
  (∃ x y n, i = .drw x y n) ∨ (∃ x, i = .ldB x) ∨ (∃ x, i = .storeRegs x) ∨ (∃ x, i = .loadRegs x)

/-- The errors of execution: which instruction takes which, and the state each leaves (R253 to R255, R259). -/
inductive TakesError (s : State) : Instr → State → Prop where
  | stackOverflow (nnn : Addr12) : TakesError s (.call nnn)
      { s with halted := some .stackOverflow, result := some (.stackOverflow s.ipc (encode (.call nnn))) }
  | stackUnderflow (u : Nibble) : TakesError s (.ret u)
      { s with halted := some .stackUnderflow, result := some (.stackUnderflow s.ipc (encode (.ret u))) }
  | memoryOutOfRange {i : Instr} (hi : AccessesMemory i) (hp : s.cfg.boundsPolicy = .fail) (a : Nat) (w : Word) :
      TakesError s i
        { s with halted := some .memoryOutOfRange, result := some (.memoryOutOfRange a s.ipc w) }

/-- Only under `Fail` is there an address that does not resolve (R66). -/
theorem boundsPolicy_of_resolve_error {cfg : Config} {base count a : Nat} (h : resolve cfg base count = .error a) :
    cfg.boundsPolicy = .fail := by
  cases hp : cfg.boundsPolicy with
  | fail => rfl
  | wrap =>
    obtain ⟨addrs, hok⟩ := resolve_total (base := base) (count := count) (.inl hp)
    rw [hok] at h
    cases h

/-- A memory instruction whose effect keeps latch and result takes its error or keeps them (R67). -/
theorem takesError_or_effect {w : Word} {count : Nat} {effect : List Nat → State} (hi : AccessesMemory i)
    (h : s.withDataAddrs w count effect = .next t)
    (heffect : ∀ addrs, (effect addrs).halted = s.halted ∧ (effect addrs).result = s.result) :
    TakesError s i t ∨ t.halted = s.halted ∧ t.result = s.result := by
  rcases withDataAddrs_cases h with ⟨addrs, -, rfl⟩ | ⟨a, ha, rfl⟩
  · exact .inr (heffect addrs)
  · exact .inl (.memoryOutOfRange hi (boundsPolicy_of_resolve_error ha) a w)

/-- An instruction takes its one kind of error, or it leaves latch and result as they were (R258). -/
theorem exec_takesError_or_keeps (h : exec i s = .next t) :
    TakesError s i t ∨ t.halted = s.halted ∧ t.result = s.result := by
  cases i with
  | call nnn =>
    rcases execCall_cases h with ⟨-, rfl⟩ | ⟨-, rfl⟩
    · exact .inl (.stackOverflow nnn)
    · exact .inr ⟨rfl, rfl⟩
  | ret u =>
    rcases execRet_cases h with ⟨-, rfl⟩ | ⟨-, rfl⟩
    · exact .inl (.stackUnderflow u)
    · exact .inr ⟨rfl, rfl⟩
  | drw x y n => exact takesError_or_effect (.inl ⟨x, y, n, rfl⟩) h fun _ => by simp
  | ldB x => exact takesError_or_effect (.inr (.inl ⟨x, rfl⟩)) h fun _ => by simp
  | storeRegs x => exact takesError_or_effect (.inr (.inr (.inl ⟨x, rfl⟩))) h fun _ => by simp
  | loadRegs x => exact takesError_or_effect (.inr (.inr (.inr ⟨x, rfl⟩))) h fun _ => by simp
  | ldVxK x =>
    rcases execLdVxK_cases h with ⟨-, rfl⟩ | ⟨key, -, rfl⟩
    · exact .inr ⟨rfl, rfl⟩
    · exact .inr ⟨rfl, rfl⟩
  | _ => cases h; exact .inr (by simp)

/-- Settles O15: an instruction that latches an error took one, and each is its own instruction's. -/
theorem errorKindsByInstruction : Obligations.ErrorKindsByInstruction := by
  intro i s t hs h hlatched
  rcases exec_takesError_or_keeps h with herr | ⟨hhalted, -⟩
  · cases herr with
    | stackOverflow nnn => exact .inl ⟨nnn, rfl, rfl⟩
    | stackUnderflow u => exact .inr (.inl ⟨u, rfl, rfl⟩)
    | memoryOutOfRange hi hp a w => exact .inr (.inr ⟨hi, hp, rfl⟩)
  · exact absurd (hhalted.trans hs) hlatched

/-! ## The result of a cycle -/

/-- The result an error returns is fatal, of the kind it latches, and is not `Halted` (R250, R256). -/
theorem TakesError.result_fatal (h : TakesError s i t) :
    ∃ r, t.result = some r ∧ t.halted = r.fatalKind ∧ r.code ≠ 6 := by
  cases h <;> exact ⟨_, rfl, rfl, by simp [CycleResult.code]⟩

/-- A cycle of a running machine returns a result that is not `Halted` and latches the kind of a fatal one (R256). -/
theorem cycle_result_running (hs : s.halted = none) (h : s.cycle keys rand = .next t) :
    ∃ r, t.result = some r ∧ t.halted = r.fatalKind ∧ r.code ≠ 6 := by
  rcases cycle_cases h with ⟨e, he, -⟩ | ⟨-, -, rfl⟩ | ⟨w, e, -, -, -, rfl⟩ | ⟨w, i, -, -, -, hexec⟩
  · simp [hs] at he
  · exact ⟨_, rfl, rfl, by simp [CycleResult.code]⟩
  · exact ⟨_, rfl, hs, by simp [CycleResult.code]⟩
  · rcases exec_takesError_or_keeps hexec with herr | ⟨hhalted, hresult⟩
    · exact herr.result_fatal
    · exact ⟨.ok, hresult, hhalted.trans hs, by simp [CycleResult.code]⟩

theorem CycleResult.code_le (r : CycleResult) : r.code ≤ 6 := by
  cases r <;> simp [CycleResult.code]

/-- Settles O12: a halted machine's cycle is one equation, and a running one's result comes from the fetch, the decoder
or the instruction. -/
theorem everyCycleReturnsOneResult : Obligations.EveryCycleReturnsOneResult := by
  intro s keys rand
  cases hs : s.halted with
  | some k =>
    exact ⟨_, .halted k, cycle_halted hs keys rand, rfl, CycleResult.code_le _,
      fun hnone => absurd hnone (Option.some_ne_none k), fun _ hk' => congrArg CycleResult.halted (Option.some.inj hk')⟩
  | none =>
    obtain ⟨t, h⟩ := cycle_total s keys rand
    obtain ⟨r, hresult, hkind, hcode⟩ := cycle_result_running hs h
    exact ⟨t, r, h, hresult, r.code_le, fun _ => ⟨hkind, hcode⟩, fun k hk => absurd hk.symm (Option.some_ne_none k)⟩

/-! ## The latch -/

/-- A cycle of a halted machine keeps the latch (R256). -/
theorem cycle_keeps_latch (hs : s.halted = some k) (h : s.cycle keys rand = .next t) : t.halted = some k := by
  rw [cycle_halted hs] at h
  cases h
  exact hs

/-- No step but a RESET clears the latch (R256). -/
theorem step_keeps_latch (hs : s.halted = some k) (h : step s = .next t)
    (hreset : ∀ image rest, s.pending ≠ .reset image :: rest) : t.halted = some k := by
  rcases step_cases h with ⟨-, hc⟩ | ⟨keys, rand, rest, -, hc⟩ | ⟨rest, -, rfl⟩ | ⟨rest, -, rfl⟩ |
    ⟨image, rest, u, hp, -, -⟩
  · exact cycle_keeps_latch (s := ({ s with draws := s.draws + 1 } : State).ticks _) hs hc
  · exact cycle_keeps_latch (s := { s with pending := rest }) hs hc
  · exact hs
  · exact hs
  · exact absurd hp (hreset image rest)

/-- Settles O13: a halted cycle only returns its result, and TICK and READ do not look at the latch. -/
theorem haltedLatchHolds : Obligations.HaltedLatchHolds := by
  intro s k hs
  refine ⟨fun keys rand => ?_, fun rest hp => ?_, fun rest hp => ?_, fun t => step_keeps_latch hs⟩
  · exact ⟨_, cycle_halted hs keys rand, hs, rfl, frame_result s _⟩
  · exact ⟨_, step_pending hp, hs, toNat_timerTick s.DT, toNat_timerTick s.ST⟩
  · exact ⟨_, step_pending hp, hs, rfl⟩

/-! ## Precise errors -/

/-- Entering a handler advances the pc and latches the cycle's inputs (R120, R122). -/
theorem frame_enter (s : State) (keys : Word) (rand : Byte) :
    Frame s (s.enter keys rand) [.pc, .error, .inputs] := by
  intro p hp; cases p <;> simp_all [Part.same]

/-- No instruction of a running machine latches the fetch's error (R258). -/
theorem exec_enter_halted_ne_fetchOutOfBounds (hs : s.halted = none) (h : exec i (s.enter keys rand) = .next t) :
    t.halted ≠ some .fetchOutOfBounds := by
  rcases exec_takesError_or_keeps h with herr | ⟨hhalted, -⟩
  · cases herr <;> simp
  · simp [hhalted, hs]

/-- No instruction returns a decode error (R258). -/
theorem exec_enter_result_ne_decodeError (h : exec i (s.enter keys rand) = .next t) (w a : Word) :
    t.result ≠ some (.decodeError w a) := by
  rcases exec_takesError_or_keeps h with herr | ⟨-, hresult⟩
  · cases herr <;> simp
  · simp [hresult]

/-- An instruction of a running machine that latches an error leaves the state before the cycle but for the pc's
advance, the cycle's inputs, latch and result (R259). -/
theorem exec_enter_precise (hs : s.halted = none) (h : exec i (s.enter keys rand) = .next t)
    (hlatched : t.halted ≠ none) : t.pc = s.pc + 2 ∧ Frame s t [.pc, .error, .inputs] := by
  obtain ⟨-, hraised⟩ := instructionsWriteOnlyTheirState i (s.enter keys rand) t hs h
  have hframe : Frame (s.enter keys rand) t [.error] := hraised hlatched
  exact ⟨hframe .pc (by simp), (frame_enter s keys rand).andThen hframe (by simp)⟩

/-- Settles O14, by the cases of a cycle: each clause's premise belongs to one way a running machine's cycle ends. -/
theorem errorsArePrecise : Obligations.ErrorsArePrecise := by
  intro s t keys rand hs h
  rcases cycle_cases h with ⟨e, he, -⟩ | ⟨-, -, rfl⟩ | ⟨w, e, -, hf, hd, rfl⟩ | ⟨w, i, -, -, -, hexec⟩
  · simp [hs] at he
  · exact ⟨fun _ => frame_raised s _ _, fun k hk hne => absurd (Option.some.inj hk).symm hne, fun _ _ hr => by cases hr⟩
  · refine ⟨fun hk => by simp [hs] at hk, fun k hk => by simp [hs] at hk, fun _ a hr => ?_⟩
    cases hr
    obtain ⟨t, ht, -, hpc, hhalted, hframe⟩ := decodeErrorAdvancesOnlyPc s w e keys rand hs hf hd
    cases h.symm.trans ht
    exact ⟨rfl, hhalted, hpc, hframe⟩
  · refine ⟨fun hk => ?_, fun k hk _ => exec_enter_precise hs hexec (by simp [hk]), fun w a hr => ?_⟩
    · exact absurd hk (exec_enter_halted_ne_fetchOutOfBounds hs hexec)
    · exact absurd hr (exec_enter_result_ne_decodeError hexec w a)

/-! ## Ticks -/

/-- Setting both timers touches nothing else. -/
theorem frame_timers (s : State) (dt st : Byte) :
    Frame s { s with DT := dt, ST := st } [.delayTimer, .soundTimer] :=
  (frame_setDT s dt).andThen (frame_setST _ st) (by simp)

/-- Settles O5: a TICK comes off the pending list and sets the two timers. -/
theorem tickDecrementsTimers : Obligations.TickDecrementsTimers := by
  intro s rest hp
  exact ⟨_, step_pending hp, toNat_timerTick s.DT, toNat_timerTick s.ST, rfl, rfl,
    (frame_pending s rest).andThen (frame_timers _ _ _) (by simp)⟩

theorem runSteps_succ {n : Nat} (h : step s = .next t) : runSteps (n + 1) s = runSteps n t := by
  simp only [runSteps, h]

theorem runSteps_one (s : State) : runSteps 1 s = step s := by
  unfold runSteps
  split
  · rename_i t h; exact h.symm
  · rename_i f h; exact h.symm
  · rename_i r h; exact h.symm

/-- Pending TICKs run one by one, to the state `ticks` names, and leave what is pending after them (R50, R270). -/
theorem runSteps_pendingTicks {n : Nat} {ops : List HostOp} (m : Nat)
    (hp : s.pending = List.replicate n .tick ++ ops) :
    runSteps (m + n) s = runSteps m { s.ticks n with pending := ops } := by
  induction n generalizing s with
  | zero =>
    obtain rfl : s.pending = ops := hp
    rw [s.ticks_zero]
    rfl
  | succ n ih =>
    have htick : step s = .next ({ s with pending := List.replicate n .tick ++ ops } : State).tick := step_pending hp
    rw [← Nat.add_assoc, runSteps_succ htick, ih rfl, s.ticks_succ]
    rfl

/-- Pending TICKs and then a pending CYCLE run in that order (R271). -/
theorem runSteps_ticksThenCycle {n : Nat} {rest : List HostOp}
    (hp : s.pending = List.replicate n .tick ++ .cycle keys rand :: rest) :
    runSteps (n + 1) s = ({ s.ticks n with pending := rest } : State).cycle keys rand := by
  rw [Nat.add_comm, runSteps_pendingTicks 1 hp, runSteps_one]
  exact step_pending (s := { s.ticks n with pending := .cycle keys rand :: rest }) rfl

/-- Settles O54: the pending TICKs lead to `ticks n`, and the step after them is the pending cycle's. -/
theorem pendingTicksRunBeforeCycle : Obligations.PendingTicksRunBeforeCycle := by
  intro s n keys rand rest hp
  have hticks : runSteps n s = .next { s.ticks n with pending := .cycle keys rand :: rest } := by
    simpa only [Nat.zero_add, runSteps] using runSteps_pendingTicks 0 hp
  exact ⟨_, hticks, rfl, toNat_timerTicks n s.DT, toNat_timerTicks n s.ST,
    (frame_timers s _ _).andThen (frame_pending _ _) (by simp), rfl, runSteps_ticksThenCycle hp⟩

/-- Settles O55: with the free values written out as a pending list, the TICKs and the CYCLE run one by one. -/
theorem freeTicksInterleaveWithCycles : Obligations.FreeTicksInterleaveWithCycles := by
  intro s hp
  rw [step_free hp, runSteps_ticksThenCycle rfl, ← hp]
  rfl

end Sys2Proof.Machine
end

section
/-! PROOFS. The reset family: the constructed machine's memory byte by byte and its cleared state
(70_reset_and_hazards.md R290 to R292), and RESET of a live machine (R293). -/

namespace Sys2Proof.Machine

variable {cfg : Config} {image : List Byte}

/-! ## The program image in memory (R291) -/

/-- The cells of an image: its bytes, paired with the addresses that rise from its load address. -/
theorem imageCells_eq_zip (a : Nat) (image : List Byte) :
    imageCells a image = (List.range' a image.length).zip image := by
  induction image generalizing a with
  | nil => rfl
  | cons b rest ih => rw [imageCells, ih, List.length_cons, List.range'_succ, List.zip_cons_cons]

/-- The addresses of the cells, one per byte. -/
theorem map_fst_imageCells (a : Nat) (image : List Byte) :
    (imageCells a image).map (·.1) = List.range' a image.length := by
  rw [imageCells_eq_zip]
  exact List.map_fst_zip (Nat.le_of_eq List.length_range')

theorem mem_imageCells (a : Nat) {k : Nat} (hk : k < image.length) : (a + k, image[k]) ∈ imageCells a image := by
  rw [imageCells_eq_zip]
  exact List.mem_iff_getElem.mpr ⟨k, by simpa using hk, by simp⟩

/-- The constructed memory holds the image from the program start on. -/
theorem readByte_blank_image {k : Nat} (hk : k < image.length) :
    ((State.blank cfg).writeBytes (imageCells progStart image)).readByte (progStart + k) = image[k] := by
  refine readByte_writeBytes_mem _ _ ?_ (mem_imageCells progStart hk)
  rw [map_fst_imageCells]
  exact List.nodup_range'

/-- Outside the image the constructed memory reads as font and zeros (R290). -/
theorem readByte_blank_outside {a : Nat} (ha : a < progStart ∨ progStart + image.length ≤ a) :
    ((State.blank cfg).writeBytes (imageCells progStart image)).readByte a = Memory.initial cfg.font a := by
  refine readByte_writeBytes_other (State.blank cfg) _ fun c hc hca => ?_
  have haddr : c.1 ∈ List.range' progStart image.length := map_fst_imageCells _ _ ▸ List.mem_map_of_mem hc
  have := List.mem_range'_1.mp haddr
  omega

theorem initial_of_ge {font : Vector Byte fontLen} {a : Nat} (ha : fontLen ≤ a) : Memory.initial font a = 0 :=
  dif_neg (Nat.not_lt.mpr ha)

/-! ## The cleared state (R290) -/

theorem reg_blank (cfg : Config) (r : Reg) : (State.blank cfg).reg r = 0 := Vector.getElem_replicate ..

theorem stackEntry_blank {k : Nat} (hk : k < cfg.stackDepth) : (State.blank cfg).stackEntry k = 0 := by
  simp [State.stackEntry, State.blank, hk]

theorem pixel_blank (cfg : Config) (r : Fin 32) (c : Fin 64) : (State.blank cfg).pixel r c = false := by
  have hrow : (State.blank cfg).row r = 0 := Vector.getElem_replicate ..
  rw [State.pixel, hrow]
  exact BitVec.getLsbD_zero

/-! ## Which images are accepted (R257, R291) -/

theorem construct_fits (h : image.length + progStart ≤ cfg.memSize) :
    construct cfg image = .loadOk ((State.blank cfg).writeBytes (imageCells progStart image)) := if_pos h

theorem construct_too_long (h : cfg.memSize < image.length + progStart) : construct cfg image = .loadError :=
  if_neg (Nat.not_le.mpr h)

/-- Settles O3: an accepted image is written over the blank machine, whose memory reads as font and zeros. -/
theorem constructionFollowsImage : Obligations.ConstructionFollowsImage := by
  intro cfg image ⟨hroom, _, _⟩
  have hprog : progStart = 0x200 := rfl
  have hbelow : fontLen ≤ progStart := by decide
  refine ⟨fun hfit => ?_, fun hlong => construct_too_long (by omega)⟩
  refine ⟨_, construct_fits (by omega), rfl, reg_blank cfg, rfl, rfl, rfl, List.length_replicate,
    fun _ => stackEntry_blank, rfl, rfl, fun a ha => ?font, fun a hfont ha => ?gap, fun _ => readByte_blank_image,
    fun a ha _ => ?rest, pixel_blank cfg, rfl, rfl⟩
  case font => exact (readByte_blank_outside (.inl (by omega))).trans (dif_pos ha)
  case gap => exact (readByte_blank_outside (.inl ha)).trans (initial_of_ge hfont)
  case rest => exact (readByte_blank_outside (.inr ha)).trans (initial_of_ge (by omega))

/-! ## RESET of a live machine (R293) -/

/-- RESET with an accepted image: the constructed machine, with the host's own fields (assumption log 8). -/
theorem step_reset_loadOk {s u : State} {rest : List HostOp} (hp : s.pending = .reset image :: rest)
    (hu : construct s.cfg image = .loadOk u) : step s = .next { u with draws := s.draws, pending := rest } := by
  rw [step_pending hp]
  simp only [State.hostOp, hu]

/-- RESET with an image that does not fit leaves no machine (R54, R257). -/
theorem step_reset_loadError {s : State} {rest : List HostOp} (hp : s.pending = .reset image :: rest)
    (he : construct s.cfg image = .loadError) : step s = .fault (.loadError image.length) := by
  rw [step_pending hp]
  simp only [State.hostOp, he]

/-- Settles O4: the new machine is the constructed one, which has no latch, no result and no keys; only the host's
fields come from the old one. -/
theorem resetDiscardsLiveMachine : Obligations.ResetDiscardsLiveMachine := by
  intro s image rest hp
  refine ⟨fun u hu => ⟨_, step_reset_loadOk hp hu, rfl, ?_⟩, step_reset_loadError hp⟩
  obtain ⟨-, rfl⟩ := construct_loadOk hu
  exact ⟨rfl, rfl, rfl, rfl, rfl⟩

end Sys2Proof.Machine
end
